-- ==== Sys2Proof/Word.lean ====
section
/-! DEFINITION. The word types of the machine (spec/00_scope.md rule R5: `XLEN`, `ALEN`, `ILEN`, `NREG`). -/

namespace Sys2Proof

/-- A memory cell, a general register or a timer: 8 bits, unsigned (R21, R29, R31). -/
abbrev Byte := BitVec 8

/-- `PC`, `I`, `SP` and an opcode: 16 bits, unsigned (R25, R26, R28, R80). -/
abbrev Word := BitVec 16

/-- The number of a general register, `V0` to `VF` (R21). -/
abbrev RegNum := Fin 16

/-- A key code, 0 to 15 (R30). -/
abbrev KeyCode := Fin 16

/-- The number of `VF`, the register that doubles as the flag (R22). -/
abbrev flagReg : RegNum := 15

end Sys2Proof
end

