-- ==== Sys2Proof/Config.lean ====
section
/-! DEFINITION. The constants the spec fixes, the parameters it leaves open and the free value of CXNN
(spec/00_scope.md rule R5). -/

namespace Sys2Proof

/-- The glyph table: 16 glyphs of 5 bytes (R152). -/
abbrev Font := Vector Byte 80

/-- The OPEN parameters of R5, fixed for the life of a machine (R200). They stand in State as one field
that no event changes (log 3). -/
structure Config where
  /-- `STACK_LO`, the lowest address of the call-stack region (R58). -/
  stackLo : Nat
  /-- `STACK_HI`, one above the highest address of the call-stack region (R58). -/
  stackHi : Nat
  /-- `FONT` (R152). -/
  font : Font
  /-- `STRICT_UNMAPPED` (R87). -/
  strictUnmapped : Bool
  deriving DecidableEq, Repr

namespace Config

/-- `MEM_SIZE` (R5, R50). -/
@[simp] def memSize : Nat := 4096
/-- `FONT_LEN` (R5, R51); `FONT_BASE` is 0. -/
@[simp] def fontLen : Nat := 80
/-- `PROG_BASE` (R5, R51, R202). -/
@[simp] def progBase : Nat := 512
/-- `PROG_MAX`, the size of the largest accepted image (R5, R201). -/
@[simp] def progMax : Nat := 3328
/-- `FB_BASE` (R5, R51). -/
@[simp] def fbBase : Nat := 3840
/-- `FB_LEN` (R5, R51). -/
@[simp] def fbLen : Nat := 256
/-- `FB_W` (R5, R150). -/
@[simp] def fbWidth : Nat := 64
/-- `FB_H` (R5, R150). -/
@[simp] def fbHeight : Nat := 32

/-- The FREE VALUE of CXNN: the byte the outside world supplies at the `n`-th draw (R132, D21: "a fresh
8-bit value ... under no law"). It has no body, so nothing can be proved about the byte (log 2). -/
opaque draw : Nat → Byte

end Config
end Sys2Proof
end

