-- ==== Sys2Proof/Syntax.lean ====
section
/-! DEFINITION. The instruction set: one constructor per row of spec/opcode_table.json
(spec/30_encoding.md rule R85). Operands are the fields of R81, each of the field's own width (R83). -/

namespace Sys2Proof

/-- The 34 instructions. The docstring of each gives its opcode pattern and its rule. -/
inductive Instr where
  /-- `00E0` CLS (R153). -/
  | cls
  /-- `00EE` RET (R100). -/
  | ret
  /-- `1NNN` JP NNN (R101). -/
  | jp (nnn : BitVec 12)
  /-- `2NNN` CALL NNN (R102). -/
  | call (nnn : BitVec 12)
  /-- `3XNN` SE VX, NN (R110). -/
  | seImm (x : RegNum) (nn : Byte)
  /-- `4XNN` SNE VX, NN (R111). -/
  | sneImm (x : RegNum) (nn : Byte)
  /-- `5XY0` SE VX, VY (R112). -/
  | seReg (x y : RegNum)
  /-- `6XNN` LD VX, NN (R120). -/
  | ldImm (x : RegNum) (nn : Byte)
  /-- `7XNN` ADD VX, NN (R121). -/
  | addImm (x : RegNum) (nn : Byte)
  /-- `8XY0` LD VX, VY (R122). -/
  | ldReg (x y : RegNum)
  /-- `8XY1` OR VX, VY (R123). -/
  | orReg (x y : RegNum)
  /-- `8XY2` AND VX, VY (R124). -/
  | andReg (x y : RegNum)
  /-- `8XY3` XOR VX, VY (R125). -/
  | xorReg (x y : RegNum)
  /-- `8XY4` ADD VX, VY (R126). -/
  | addReg (x y : RegNum)
  /-- `8XY5` SUB VX, VY (R127). -/
  | subReg (x y : RegNum)
  /-- `8XY6` SHR VX (R128); `y` is encoded and ignored (R88). -/
  | shr (x y : RegNum)
  /-- `8XY7` SUBN VX, VY (R129). -/
  | subnReg (x y : RegNum)
  /-- `8XYE` SHL VX (R130); `y` is encoded and ignored (R88). -/
  | shl (x y : RegNum)
  /-- `9XY0` SNE VX, VY (R113). -/
  | sneReg (x y : RegNum)
  /-- `ANNN` LD I, NNN (R140). -/
  | ldI (nnn : BitVec 12)
  /-- `BNNN` JP V0, NNN (R103). -/
  | jpV0 (nnn : BitVec 12)
  /-- `CXNN` RND VX, NN (R132). -/
  | rnd (x : RegNum) (nn : Byte)
  /-- `DXYN` DRW VX, VY, N (R154); `n` is the number of rows, 0 to 15. -/
  | drw (x y : RegNum) (n : Fin 16)
  /-- `EX9E` SKP VX (R170). -/
  | skp (x : RegNum)
  /-- `EXA1` SKNP VX (R171). -/
  | sknp (x : RegNum)
  /-- `FX07` LD VX, DT (R160). -/
  | ldVxDt (x : RegNum)
  /-- `FX0A` LD VX, K (R172). -/
  | ldVxK (x : RegNum)
  /-- `FX15` LD DT, VX (R161). -/
  | ldDtVx (x : RegNum)
  /-- `FX18` LD ST, VX (R162). -/
  | ldStVx (x : RegNum)
  /-- `FX1E` ADD I, VX (R141). -/
  | addI (x : RegNum)
  /-- `FX29` LD F, VX (R142). -/
  | ldF (x : RegNum)
  /-- `FX33` LD B, VX (R143). -/
  | ldB (x : RegNum)
  /-- `FX55` LD [I], VX (R144). -/
  | storeRegs (x : RegNum)
  /-- `FX65` LD VX, [I] (R145). -/
  | loadRegs (x : RegNum)
  deriving DecidableEq, Repr

end Sys2Proof
end

