-- ==== Sys2Proof/WellFormed.lean ====
section
/-! DEFINITION. What is well formed: a 16-bit word as an instruction (the opcode map of
spec/30_encoding.md rule R85, written apart from the decoder), the parameters (R58) and a program image
(R201). A term of `Instr` needs no check: each operand's type is exactly its field's width (R81, R83). -/

namespace Sys2Proof

/-- One row of the opcode map: a word selects it iff `word & mask = bits` (R85). -/
structure OpcodeRow where
  pattern : String
  mask : Word
  bits : Word
  deriving DecidableEq, Repr

/-- The word selects the row (R85: "`op & mask = match`"). -/
def OpcodeRow.selects (r : OpcodeRow) (op : Word) : Bool := op &&& r.mask == r.bits

/-- The row of the opcode map that an instruction belongs to (R85). -/
def Instr.row : Instr → OpcodeRow
  | .cls => ⟨"00E0", 0xFFFF, 0x00E0⟩
  | .ret => ⟨"00EE", 0xFFFF, 0x00EE⟩
  | .jp _ => ⟨"1NNN", 0xF000, 0x1000⟩
  | .call _ => ⟨"2NNN", 0xF000, 0x2000⟩
  | .seImm _ _ => ⟨"3XNN", 0xF000, 0x3000⟩
  | .sneImm _ _ => ⟨"4XNN", 0xF000, 0x4000⟩
  | .seReg _ _ => ⟨"5XY0", 0xF00F, 0x5000⟩
  | .ldImm _ _ => ⟨"6XNN", 0xF000, 0x6000⟩
  | .addImm _ _ => ⟨"7XNN", 0xF000, 0x7000⟩
  | .ldReg _ _ => ⟨"8XY0", 0xF00F, 0x8000⟩
  | .orReg _ _ => ⟨"8XY1", 0xF00F, 0x8001⟩
  | .andReg _ _ => ⟨"8XY2", 0xF00F, 0x8002⟩
  | .xorReg _ _ => ⟨"8XY3", 0xF00F, 0x8003⟩
  | .addReg _ _ => ⟨"8XY4", 0xF00F, 0x8004⟩
  | .subReg _ _ => ⟨"8XY5", 0xF00F, 0x8005⟩
  | .shr _ _ => ⟨"8XY6", 0xF00F, 0x8006⟩
  | .subnReg _ _ => ⟨"8XY7", 0xF00F, 0x8007⟩
  | .shl _ _ => ⟨"8XYE", 0xF00F, 0x800E⟩
  | .sneReg _ _ => ⟨"9XY0", 0xF00F, 0x9000⟩
  | .ldI _ => ⟨"ANNN", 0xF000, 0xA000⟩
  | .jpV0 _ => ⟨"BNNN", 0xF000, 0xB000⟩
  | .rnd _ _ => ⟨"CXNN", 0xF000, 0xC000⟩
  | .drw _ _ _ => ⟨"DXYN", 0xF000, 0xD000⟩
  | .skp _ => ⟨"EX9E", 0xF0FF, 0xE09E⟩
  | .sknp _ => ⟨"EXA1", 0xF0FF, 0xE0A1⟩
  | .ldVxDt _ => ⟨"FX07", 0xF0FF, 0xF007⟩
  | .ldVxK _ => ⟨"FX0A", 0xF0FF, 0xF00A⟩
  | .ldDtVx _ => ⟨"FX15", 0xF0FF, 0xF015⟩
  | .ldStVx _ => ⟨"FX18", 0xF0FF, 0xF018⟩
  | .addI _ => ⟨"FX1E", 0xF0FF, 0xF01E⟩
  | .ldF _ => ⟨"FX29", 0xF0FF, 0xF029⟩
  | .ldB _ => ⟨"FX33", 0xF0FF, 0xF033⟩
  | .storeRegs _ => ⟨"FX55", 0xF0FF, 0xF055⟩
  | .loadRegs _ => ⟨"FX65", 0xF0FF, 0xF065⟩

/-- One instruction of each kind, in the order of the opcode map, its operands zero. -/
def Instr.samples : List Instr :=
  [.cls, .ret, .jp 0, .call 0, .seImm 0 0, .sneImm 0 0, .seReg 0 0, .ldImm 0 0, .addImm 0 0,
    .ldReg 0 0, .orReg 0 0, .andReg 0 0, .xorReg 0 0, .addReg 0 0, .subReg 0 0, .shr 0 0,
    .subnReg 0 0, .shl 0 0] ++
  [.sneReg 0 0, .ldI 0, .jpV0 0, .rnd 0 0, .drw 0 0 0, .skp 0, .sknp 0, .ldVxDt 0, .ldVxK 0,
    .ldDtVx 0, .ldStVx 0, .addI 0, .ldF 0, .ldB 0, .storeRegs 0, .loadRegs 0]

/-- The opcode map, 34 rows (R85). -/
def opcodeMap : List OpcodeRow := Instr.samples.map Instr.row

/-- A word is a well-formed instruction iff it selects a row of the opcode map; every other word is
unmapped (R85, R86). -/
def wordMapped (op : Word) : Bool := opcodeMap.any (·.selects op)

/-- The constraints of R58 on the call-stack region: inside `[80, 512)`, both ends even, at least one
entry. -/
abbrev Config.wf (c : Config) : Prop :=
  80 ≤ c.stackLo ∧ c.stackLo < c.stackHi ∧ c.stackHi ≤ 512 ∧ c.stackLo % 2 = 0 ∧ c.stackHi % 2 = 0

/-- `CAP`, the number of return addresses the stack region holds (R58). -/
def Config.cap (c : Config) : Nat := (c.stackHi - c.stackLo) / 2

/-- An image is accepted iff it is at most `PROG_MAX` bytes long; its content is never inspected (R201). -/
abbrev imageFits (image : List Byte) : Prop := image.length ≤ Config.progMax

end Sys2Proof
end

