-- ==== Sys2Proof/Decode.lean ====
section
/-! DEFINITION. The decoder (spec/30_encoding.md rules R80, R81, R84), the encoder (R90), the byte order of
16-bit quantities (R53, R80), and the host's view of the decoder. -/

namespace Sys2Proof

/-- `hi8(v)`, bits 15 to 8 (spec/00_scope.md section 4). -/
def hi8 (w : Word) : Byte := BitVec.ofNat 8 (w.toNat / 256)

/-- `lo8(v)`, bits 7 to 0. -/
def lo8 (w : Word) : Byte := BitVec.ofNat 8 (w.toNat % 256)

/-- The 16-bit value of two bytes, high byte first: `hi * 256 + lo` (R53, R80). -/
def wordOf (hi lo : Byte) : Word := BitVec.ofNat 16 (hi.toNat * 256 + lo.toNat)

/-- `F`, bits 15 to 12, the first-level dispatch (R81). -/
def fieldF (op : Word) : Nat := op.toNat / 4096
/-- `X`, bits 11 to 8 (R81). -/
def fieldX (op : Word) : RegNum := ⟨op.toNat / 256 % 16, Nat.mod_lt _ (by decide)⟩
/-- `Y`, bits 7 to 4 (R81). -/
def fieldY (op : Word) : RegNum := ⟨op.toNat / 16 % 16, Nat.mod_lt _ (by decide)⟩
/-- `N`, bits 3 to 0 (R81). -/
def fieldN (op : Word) : Fin 16 := ⟨op.toNat % 16, Nat.mod_lt _ (by decide)⟩
/-- `NN`, bits 7 to 0 (R81). -/
def fieldNN (op : Word) : Byte := BitVec.ofNat 8 (op.toNat % 256)
/-- `NNN`, bits 11 to 0 (R81). -/
def fieldNNN (op : Word) : BitVec 12 := BitVec.ofNat 12 (op.toNat % 4096)

/-- Why a sequence of bytes is no instruction. -/
inductive DecodeError where
  /-- The word matches no row of the opcode map (R86). -/
  | unmapped (op : Word)
  /-- Fewer than the two bytes of an instruction (R80). -/
  | truncated (length : Nat)
  deriving DecidableEq, Repr

/-- Family 8, by its low nibble (R84). -/
def decode8 (op : Word) : Except DecodeError Instr :=
  match (fieldN op).val with
  | 0x0 => .ok (.ldReg (fieldX op) (fieldY op))
  | 0x1 => .ok (.orReg (fieldX op) (fieldY op))
  | 0x2 => .ok (.andReg (fieldX op) (fieldY op))
  | 0x3 => .ok (.xorReg (fieldX op) (fieldY op))
  | 0x4 => .ok (.addReg (fieldX op) (fieldY op))
  | 0x5 => .ok (.subReg (fieldX op) (fieldY op))
  | 0x6 => .ok (.shr (fieldX op) (fieldY op))
  | 0x7 => .ok (.subnReg (fieldX op) (fieldY op))
  | 0xE => .ok (.shl (fieldX op) (fieldY op))
  | _ => .error (.unmapped op)

/-- Family E, by its low byte (R84). -/
def decodeE (op : Word) : Except DecodeError Instr :=
  match (fieldNN op).toNat with
  | 0x9E => .ok (.skp (fieldX op))
  | 0xA1 => .ok (.sknp (fieldX op))
  | _ => .error (.unmapped op)

/-- Family F, by its low byte (R84). -/
def decodeF (op : Word) : Except DecodeError Instr :=
  match (fieldNN op).toNat with
  | 0x07 => .ok (.ldVxDt (fieldX op))
  | 0x0A => .ok (.ldVxK (fieldX op))
  | 0x15 => .ok (.ldDtVx (fieldX op))
  | 0x18 => .ok (.ldStVx (fieldX op))
  | 0x1E => .ok (.addI (fieldX op))
  | 0x29 => .ok (.ldF (fieldX op))
  | 0x33 => .ok (.ldB (fieldX op))
  | 0x55 => .ok (.storeRegs (fieldX op))
  | 0x65 => .ok (.loadRegs (fieldX op))
  | _ => .error (.unmapped op)

/-- `decode(op)`: the high nibble first, then the fixed digits of each pattern (R84). Every word yields one
of the 34 instructions or is unmapped. -/
def decode (op : Word) : Except DecodeError Instr :=
  match fieldF op with
  | 0x0 => if op = 0x00E0 then .ok .cls else if op = 0x00EE then .ok .ret else .error (.unmapped op)
  | 0x1 => .ok (.jp (fieldNNN op))
  | 0x2 => .ok (.call (fieldNNN op))
  | 0x3 => .ok (.seImm (fieldX op) (fieldNN op))
  | 0x4 => .ok (.sneImm (fieldX op) (fieldNN op))
  | 0x5 => if (fieldN op).val = 0 then .ok (.seReg (fieldX op) (fieldY op)) else .error (.unmapped op)
  | 0x6 => .ok (.ldImm (fieldX op) (fieldNN op))
  | 0x7 => .ok (.addImm (fieldX op) (fieldNN op))
  | 0x8 => decode8 op
  | 0x9 => if (fieldN op).val = 0 then .ok (.sneReg (fieldX op) (fieldY op)) else .error (.unmapped op)
  | 0xA => .ok (.ldI (fieldNNN op))
  | 0xB => .ok (.jpV0 (fieldNNN op))
  | 0xC => .ok (.rnd (fieldX op) (fieldNN op))
  | 0xD => .ok (.drw (fieldX op) (fieldY op) (fieldN op))
  | 0xE => decodeE op
  | 0xF => decodeF op
  | _ => .error (.unmapped op)

/-- The instruction at the head of a list of bytes, and the bytes after it (R80: two bytes, high first). -/
def decodeBytes : List Byte → Except DecodeError (Instr × List Byte)
  | hi :: lo :: rest =>
    match decode (wordOf hi lo) with
    | .ok i => .ok (i, rest)
    | .error e => .error e
  | short => .error (.truncated short.length)

/-- The word of format A: an address immediate (R82). -/
def wordA (f : Nat) (nnn : BitVec 12) : Word := BitVec.ofNat 16 (f * 4096 + nnn.toNat)
/-- The word of format XI: a register and an immediate (R82). -/
def wordXI (f : Nat) (x : RegNum) (nn : Byte) : Word := BitVec.ofNat 16 (f * 4096 + x.val * 256 + nn.toNat)
/-- The word of format XY: two registers and a low nibble (R82). -/
def wordXY (f : Nat) (x y : RegNum) (n : Nat) : Word :=
  BitVec.ofNat 16 (f * 4096 + x.val * 256 + y.val * 16 + n)
/-- The word of format XS: a register and a sub-opcode byte (R82). -/
def wordXS (f : Nat) (x : RegNum) (sub : Nat) : Word := BitVec.ofNat 16 (f * 4096 + x.val * 256 + sub)

/-- The word of an instruction: `match | fields` (R90), the fields at the places of R81. -/
def encode : Instr → Word
  | .cls => 0x00E0
  | .ret => 0x00EE
  | .jp nnn => wordA 0x1 nnn
  | .call nnn => wordA 0x2 nnn
  | .seImm x nn => wordXI 0x3 x nn
  | .sneImm x nn => wordXI 0x4 x nn
  | .seReg x y => wordXY 0x5 x y 0x0
  | .ldImm x nn => wordXI 0x6 x nn
  | .addImm x nn => wordXI 0x7 x nn
  | .ldReg x y => wordXY 0x8 x y 0x0
  | .orReg x y => wordXY 0x8 x y 0x1
  | .andReg x y => wordXY 0x8 x y 0x2
  | .xorReg x y => wordXY 0x8 x y 0x3
  | .addReg x y => wordXY 0x8 x y 0x4
  | .subReg x y => wordXY 0x8 x y 0x5
  | .shr x y => wordXY 0x8 x y 0x6
  | .subnReg x y => wordXY 0x8 x y 0x7
  | .shl x y => wordXY 0x8 x y 0xE
  | .sneReg x y => wordXY 0x9 x y 0x0
  | .ldI nnn => wordA 0xA nnn
  | .jpV0 nnn => wordA 0xB nnn
  | .rnd x nn => wordXI 0xC x nn
  | .drw x y n => wordXY 0xD x y n.val
  | .skp x => wordXS 0xE x 0x9E
  | .sknp x => wordXS 0xE x 0xA1
  | .ldVxDt x => wordXS 0xF x 0x07
  | .ldVxK x => wordXS 0xF x 0x0A
  | .ldDtVx x => wordXS 0xF x 0x15
  | .ldStVx x => wordXS 0xF x 0x18
  | .addI x => wordXS 0xF x 0x1E
  | .ldF x => wordXS 0xF x 0x29
  | .ldB x => wordXS 0xF x 0x33
  | .storeRegs x => wordXS 0xF x 0x55
  | .loadRegs x => wordXS 0xF x 0x65

/-- The two bytes of an instruction as they lie in memory, high byte first (R80, R90). -/
def encodeBytes (i : Instr) : List Byte := [hi8 (encode i), lo8 (encode i)]

/-- The first 16-bit word of an instruction whose bits are `w`, of which the opcode table gives `nbits`;
every bit above `nbits` is 0. Every instruction is one word, so nothing above bit 15 belongs to it (R80). -/
def tableWord (nbits w : Nat) : Word := BitVec.ofNat 16 (w % 2 ^ nbits)

/-- What the decoder reads from that word, laid out in memory as R80 says. -/
def decodeTableWord (nbits w : Nat) : Option Instr :=
  match decodeBytes [hi8 (tableWord nbits w), lo8 (tableWord nbits w)] with
  | .ok (i, _) => some i
  | .error _ => none

end Sys2Proof
end

