-- ==== Sys2Proof/Machine/Defaults.lean ====
section
/-! DEFINITION. The default values of the parameters (spec/00_scope.md rule R5, spec/44_display.md rule R152). -/

namespace Sys2Proof.Machine

/-- The default glyphs 0 to 3, five bytes each (R152). -/
def glyphs0to3 : Vector Byte 20 :=
  #v[0xF0, 0x90, 0x90, 0x90, 0xF0,
    0x20, 0x60, 0x20, 0x20, 0x70,
    0xF0, 0x10, 0xF0, 0x80, 0xF0,
    0xF0, 0x10, 0xF0, 0x10, 0xF0]

/-- The default glyphs 4 to 7, five bytes each (R152). -/
def glyphs4to7 : Vector Byte 20 :=
  #v[0x90, 0x90, 0xF0, 0x10, 0x10,
    0xF0, 0x80, 0xF0, 0x10, 0xF0,
    0xF0, 0x80, 0xF0, 0x90, 0xF0,
    0xF0, 0x10, 0x20, 0x40, 0x40]

/-- The default glyphs 8 to B, five bytes each (R152). -/
def glyphs8toB : Vector Byte 20 :=
  #v[0xF0, 0x90, 0xF0, 0x90, 0xF0,
    0xF0, 0x90, 0xF0, 0x10, 0xF0,
    0xF0, 0x90, 0xF0, 0x90, 0x90,
    0xE0, 0x90, 0xE0, 0x90, 0xE0]

/-- The default glyphs C to F, five bytes each (R152). -/
def glyphsCtoF : Vector Byte 20 :=
  #v[0xF0, 0x80, 0x80, 0x80, 0xF0,
    0xE0, 0x90, 0x90, 0x90, 0xE0,
    0xF0, 0x80, 0xF0, 0x80, 0xF0,
    0xF0, 0x80, 0xF0, 0x80, 0x80]

/-- The default `FONT` (R152, D2). -/
def defaultFont : Font := (glyphs0to3 ++ glyphs4to7) ++ (glyphs8toB ++ glyphsCtoF)

/-- The default parameters: a stack of 16 entries in `[480, 512)`, unmapped words are no-ops (R5). -/
def defaultConfig : Config :=
  { stackLo := 480, stackHi := 512, font := defaultFont, strictUnmapped := false }

end Sys2Proof.Machine
end

