-- ==== Sys2Proof/Machine/State.lean ====
section
/-! DEFINITION. The state of the machine (spec/10_state.md rule R20), the events that change it (R33), the
reasons an event can stop, and the state after reset (R36). -/

namespace Sys2Proof.Machine

/-- The execution-time faults and what each records (spec/60_exceptions.md rule R180). -/
inductive Cause where
  /-- An access at the address `a >= 4096` (R181, R182). -/
  | addressOverrun (a : Nat)
  /-- A push with every slot of the call stack in use (R183). -/
  | stackOverflow
  /-- A pop with the call stack empty (R184). -/
  | stackUnderflow
  /-- An unmapped word met in strict mode (R185). -/
  | unmappedOpcode (op : Word)
  deriving DecidableEq, Repr

/-- `RUN` (R32). `faulted` is a state of the machine, entered as R186 says, and not an outcome. -/
inductive Run where
  | running
  | waitingForKey (x : RegNum)
  | faulted (c : Cause)
  deriving DecidableEq, Repr

/-- The events of R33. Key codes are 0 to 15 by the interface's own definition (R173 to R175). -/
inductive Event where
  | step
  | tick
  | keyDown (c : KeyCode)
  | keyUp (c : KeyCode)
  | resolveKeyWait (c : KeyCode)
  | reset (image : List Byte)
  deriving DecidableEq, Repr

/-- Why an event produces no state. -/
inductive Fault where
  /-- Raised by the event `Reset(image)` alone, for an image of `length > 3328` bytes: "the image rejected
  outright", "no machine state is produced" (R187, R201). Safe: nothing runs after it. -/
  | imageRejected (length : Nat)
  deriving DecidableEq, Repr

/-- Why an instruction has no meaning. -/
inductive Refusal where
  /-- Raised by an arm of `exec` whose instruction has no meaning yet. No arm does. Safe: nothing runs. -/
  | notModelled (mnemonic : String)
  deriving DecidableEq, Repr

/-- Memory as the cells that differ from the reset contents, addresses strictly rising (log 6). -/
abbrev Memory := List Host.Cell

/-- The state: the tuple of R20, and below it the parameters of R5 and the model's own two fields. -/
structure State where
  /-- `Mem[0..4095]` (R31). -/
  mem : Memory
  /-- `V[0..15]` (R21). -/
  v : Vector Byte 16
  /-- `I` (R25). -/
  i : Word
  /-- `PC` (R26). -/
  pc : Word
  /-- `SP`, the address of the next free slot (R28). -/
  sp : Word
  /-- `DT` (R29). -/
  dt : Byte
  /-- `ST` (R29). -/
  st : Byte
  /-- `KEYS`, bit `c` set iff key `c` is held (R30). -/
  keys : BitVec 16
  /-- `RUN` (R32). -/
  run : Run
  /-- The parameters of R5; no event changes them (log 3). -/
  cfg : Config
  /-- The model's own: how many bytes CXNN has drawn so far (log 2). -/
  draws : Nat
  /-- The model's own: the events the host issues next, in order; `Step` after the last (log 1). -/
  schedule : List Event
  deriving DecidableEq, Repr

/-- The state after `Reset` with the empty image and the default parameters (R36, R200). -/
def State.reset : State :=
  { mem := []
    v := Vector.replicate 16 0
    i := 0
    pc := 512
    sp := BitVec.ofNat 16 (defaultConfig.stackHi - 2)
    dt := 0
    st := 0
    keys := 0
    run := .running
    cfg := defaultConfig
    draws := 0
    schedule := [] }

end Sys2Proof.Machine
end

