-- ==== Sys2Proof/Machine/Ops.lean ====
section
/-! DEFINITION. The named operations over memory, registers and the call stack (spec/20_memory.md), the
program counter (spec/10_state.md rule R27), fault entry (spec/60_exceptions.md rule R186) and reset
(spec/70_reset_and_hazards.md rule R200). -/

namespace Sys2Proof.Machine

/-! ## The memory array (R31, R50) -/

/-- What a cell that is not listed reads as: the reset contents, `FONT` below 80 and 0 elsewhere (R36, R200;
log 6). -/
def Memory.unlisted (font : Font) (a : Nat) : Byte := font.toList.getD a 0

/-- The listed byte at an address. -/
def Memory.lookup : Memory → Nat → Option Byte
  | [], _ => none
  | (k, b) :: m, a => if k = a then some b else Memory.lookup m a

/-- `Mem[a]`, the raw cell (spec/00_scope.md section 4). -/
def Memory.read (font : Font) (m : Memory) (a : Nat) : Byte :=
  (Memory.lookup m a).getD (Memory.unlisted font a)

/-- The list with the address listed at its place. -/
def Memory.insert : Memory → Nat → Byte → Memory
  | [], a, b => [(a, b)]
  | (k, c) :: m, a, b =>
    if a < k then (a, b) :: (k, c) :: m
    else if a = k then (a, b) :: m
    else (k, c) :: Memory.insert m a b

/-- The list with the address not listed. -/
def Memory.erase : Memory → Nat → Memory
  | [], _ => []
  | (k, c) :: m, a => if k = a then Memory.erase m a else (k, c) :: Memory.erase m a

/-- `Mem[a] <- b`, keeping the canonical form: a cell that reads as unlisted is not listed. -/
def Memory.write (font : Font) (m : Memory) (a : Nat) (b : Byte) : Memory :=
  if b = Memory.unlisted font a then Memory.erase m a else Memory.insert m a b

/-- `Mem[a + k] <- bs[k]` for ascending `k`, unchecked. -/
def Memory.writeList (font : Font) (m : Memory) (a : Nat) : List Byte → Memory
  | [] => m
  | b :: bs => Memory.writeList font (Memory.write font m a b) (a + 1) bs

/-- `Mem[a + k] <- b` for `n` ascending addresses, unchecked. -/
def Memory.fill (font : Font) (m : Memory) (a : Nat) (b : Byte) : Nat → Memory
  | 0 => m
  | n + 1 => Memory.fill font (Memory.write font m a b) (a + 1) b n

/-- The canonical form: addresses strictly rising and inside memory, no cell equal to what it reads as when
not listed. Two canonical memories with the same contents are the same list. -/
abbrev Memory.wf (font : Font) (m : Memory) : Prop :=
  m.Pairwise (fun c d => c.1 < d.1) ∧ ∀ c ∈ m, c.1 < Config.memSize ∧ c.2 ≠ Memory.unlisted font c.1

/-- `Mem[a]` of a state. -/
def State.byte (s : State) (a : Nat) : Byte := Memory.read s.cfg.font s.mem a

/-- The state with `Mem[a] <- b`, unchecked. -/
def State.setByte (s : State) (a : Nat) (b : Byte) : State :=
  { s with mem := Memory.write s.cfg.font s.mem a b }

/-! ## Access primitives (R52, R53). The address is an exact integer (R56). -/

/-- `MemRead(addr, 1)` (R52). -/
def memRead (s : State) (a : Nat) : Except Cause Byte :=
  if Config.memSize ≤ a then .error (.addressOverrun a) else .ok (s.byte a)

/-- `MemWrite(addr, 1, v)` (R52). -/
def memWrite (s : State) (a : Nat) (b : Byte) : Except Cause State :=
  if Config.memSize ≤ a then .error (.addressOverrun a) else .ok (s.setByte a b)

/-- `MemRead(addr, 2)`: high byte first (R53). -/
def memRead2 (s : State) (a : Nat) : Except Cause Word :=
  match memRead s a with
  | .error c => .error c
  | .ok hi =>
    match memRead s (a + 1) with
    | .error c => .error c
    | .ok lo => .ok (wordOf hi lo)

/-- `MemWrite(addr, 2, v)`: high byte first (R53). -/
def memWrite2 (s : State) (a : Nat) (w : Word) : Except Cause State :=
  match memWrite s a (hi8 w) with
  | .error c => .error c
  | .ok t => memWrite t (a + 1) (lo8 w)

/-- `n` byte reads at ascending addresses from `a` (R145, R154). -/
def readBytes (s : State) (a : Nat) : Nat → Except Cause (List Byte)
  | 0 => .ok []
  | n + 1 =>
    match memRead s a with
    | .error c => .error c
    | .ok b =>
      match readBytes s (a + 1) n with
      | .error c => .error c
      | .ok bs => .ok (b :: bs)

/-- Byte writes at ascending addresses from `a` (R143, R144). -/
def writeBytes (s : State) (a : Nat) : List Byte → Except Cause State
  | [] => .ok s
  | b :: bs =>
    match memWrite s a b with
    | .error c => .error c
    | .ok t => writeBytes t (a + 1) bs

/-! ## Registers (R21, R24) -/

/-- `V[k]`. -/
def State.reg (s : State) (k : RegNum) : Byte := s.v[k]

/-- `V[k] <- b`. No register is hard-wired (R21). -/
def State.setReg (s : State) (k : RegNum) (b : Byte) : State := { s with v := s.v.set k b }

/-- The write order of an instruction with a flag: `VF` first, `V[X]` second, so that with `X = 15` the
result stays (R24). -/
def State.setFlagThenReg (s : State) (x : RegNum) (flag result : Byte) : State :=
  (s.setReg flagReg flag).setReg x result

/-- `V[k] <- bs[k]` for every `k` that `bs` reaches; the registers above keep their values (R145). -/
def State.setRegs (s : State) (bs : List Byte) : State :=
  { s with v := Vector.ofFn (fun k : Fin 16 => bs.getD k (s.reg k)) }

/-- `V[0], ..., V[x]`, in that order (R144). -/
def State.regsUpTo (s : State) (x : RegNum) : List Byte := s.v.toList.take (x.val + 1)

/-! ## The program counter (R27) -/

/-- `PC <- (PC + 2) mod 65536`, the default end of an instruction. -/
def State.advance (s : State) : State := { s with pc := s.pc + 2 }

/-- `PC <- (PC + 4) mod 65536`, the end of a taken skip. -/
def State.skip (s : State) : State := { s with pc := s.pc + 4 }

/-- `PC <- target`, the end of a control transfer. -/
def State.jump (s : State) (target : Word) : State := { s with pc := target }

/-- `I <- a mod 65536` (R25: "masked to 16 bits on every write"). -/
def State.setI (s : State) (a : Nat) : State := { s with i := BitVec.ofNat 16 a }

/-! ## The call stack (R59) -/

/-- `Push(v)`: check, store at `SP`, move down (R59). -/
def push (s : State) (w : Word) : Except Cause State :=
  if s.sp.toNat < s.cfg.stackLo then .error .stackOverflow
  else
    match memWrite2 s s.sp.toNat w with
    | .error c => .error c
    | .ok t => .ok { t with sp := t.sp - 2 }

/-- `Pop()`: check, move up, read at the new `SP` (R59, C2). -/
def pop (s : State) : Except Cause (Word × State) :=
  if s.sp.toNat = s.cfg.stackHi - 2 then .error .stackUnderflow
  else
    let t := { s with sp := s.sp + 2 }
    match memRead2 t t.sp.toNat with
    | .error c => .error c
    | .ok w => .ok (w, t)

/-! ## Fault entry and the way out of it -/

/-- `raise F(info)`: the state before the step with only `RUN` changed; nothing is saved, `PC` stays (R186). -/
def State.raise (s : State) (c : Cause) : State := { s with run := .faulted c }

/-- The end of a step that may have raised: all its effects, or none and fault entry (R34, R186). -/
def finish (s : State) (r : Except Cause State) : Host.Outcome State Fault Refusal :=
  match r with
  | .ok t => .next t
  | .error c => .next (s.raise c)

/-- The end of a conditional skip (R114). -/
def skipIf (s : State) (cond : Bool) : Host.Outcome State Fault Refusal :=
  .next (if cond then s.skip else s.advance)

/-- All state as `Reset(image)` makes it for an accepted image (R200). There is no return from a fault; this
is the only way out (R189). The parameters stay (R200), and so do the model's own fields: the host goes on
with its schedule, and no draw is repeated (log 1, log 2). -/
def State.restart (s : State) (image : List Byte) : State :=
  { mem := Memory.writeList s.cfg.font [] Config.progBase image
    v := Vector.replicate 16 0
    i := 0
    pc := BitVec.ofNat 16 Config.progBase
    sp := BitVec.ofNat 16 (s.cfg.stackHi - 2)
    dt := 0
    st := 0
    keys := 0
    run := .running
    cfg := s.cfg
    draws := s.draws
    schedule := s.schedule }

/-! ## The random source -/

/-- The draw of this execution of CXNN, and the state with the draw used up (R132; log 2). -/
def State.draw (s : State) : Byte × State := (Config.draw s.draws, { s with draws := s.draws + 1 })

/-! ## The framebuffer (R150, R153, R154) -/

/-- `for a in fbBase .. fbBase + fbLen - 1: Mem[a] <- 0` (R153). -/
def State.clearFramebuffer (s : State) : State :=
  { s with mem := Memory.fill s.cfg.font s.mem Config.fbBase 0 Config.fbLen }

/-- `Mem[a] <- Mem[a] ^ mask`, and whether a lit pixel was under a 1-bit of the mask (R154). -/
def xorByte (s : State) (a : Nat) (mask : Byte) : Except Cause (State × Bool) :=
  match memRead s a with
  | .error c => .error c
  | .ok old =>
    match memWrite s a (old ^^^ mask) with
    | .error c => .error c
    | .ok t => .ok (t, old &&& mask != 0)

/-- One row of a sprite at the linear bit offset `b`: the first backing byte, and the second exactly when the
offset is not a multiple of 8 (R154). -/
def drawRow (s : State) (b : Nat) (row : Byte) : Except Cause (State × Bool) :=
  match xorByte s (Config.fbBase + b / 8) (row >>> (b % 8)) with
  | .error c => .error c
  | .ok (t, hit0) =>
    if b % 8 = 0 then .ok (t, hit0)
    else
      match xorByte t (Config.fbBase + b / 8 + 1) (row <<< (8 - b % 8)) with
      | .error c => .error c
      | .ok (u, hit1) => .ok (u, hit0 || hit1)

/-- The rows of a sprite, top to bottom, each one display row (64 pixels) below the last (R154). -/
def drawRows (s : State) (b : Nat) : List Byte → Except Cause (State × Bool)
  | [] => .ok (s, false)
  | row :: rows =>
    match drawRow s b row with
    | .error c => .error c
    | .ok (t, hit) =>
      match drawRows t (b + Config.fbWidth) rows with
      | .error c => .error c
      | .ok (u, hits) => .ok (u, hit || hits)

end Sys2Proof.Machine
end

