-- ==== Sys2Proof/Machine/Flags.lean ====
section
/-! DEFINITION. The values that the flag-writing instructions put into `VF` (spec/10_state.md rule R22), and the
8-bit results beside them (spec/42_alu.md rule R133). -/

namespace Sys2Proof.Machine

/-- A condition as a flag value, 1 or 0. -/
def flagOf (c : Bool) : Byte := if c then 1 else 0

/-- Carry out of bit 7: `1 if vx + vy > 255 else 0` (R126). -/
def carryFlag (vx vy : Byte) : Byte := flagOf (255 < vx.toNat + vy.toNat)

/-- No borrow of `a - b`: `1 if a >= b else 0` (R127, R129). -/
def noBorrowFlag (a b : Byte) : Byte := flagOf (b.toNat ≤ a.toNat)

/-- The bit a right shift moves out: `vx & 1` (R128). -/
def lowBitFlag (vx : Byte) : Byte := BitVec.ofNat 8 (vx.toNat % 2)

/-- The bit a left shift moves out: `(vx & 0x80) >> 7` (R130). -/
def highBitFlag (vx : Byte) : Byte := BitVec.ofNat 8 (vx.toNat / 128)

/-- `(a + b) mod 256` (R121, R126). -/
def sum8 (a b : Byte) : Byte := BitVec.ofNat 8 (a.toNat + b.toNat)

/-- `(a - b) mod 256`, the non-negative residue (R127, R129). -/
def diff8 (a b : Byte) : Byte := BitVec.ofInt 8 ((a.toNat : Int) - (b.toNat : Int))

/-- `a >> 1`, logical (R128). -/
def shiftRight1 (a : Byte) : Byte := BitVec.ofNat 8 (a.toNat / 2)

/-- `(a << 1) mod 256` (R130). -/
def shiftLeft1 (a : Byte) : Byte := BitVec.ofNat 8 (a.toNat * 2)

end Sys2Proof.Machine
end

