-- ==== Sys2Proof/Machine/Operands.lean ====
section
/-! DEFINITION. The operand forms (spec/30_encoding.md rule R83, spec/43_index_memory.md rule R146): address
immediates, `I` with an ascending offset, the glyph address, the decimal digits, the pixel offset and the key
code. An 8-bit immediate stands for itself, and a register operand is `State.reg`. -/

namespace Sys2Proof.Machine

/-- `zext_16` of a 12-bit address immediate (R83). -/
def addrImm (nnn : BitVec 12) : Word := BitVec.ofNat 16 nnn.toNat

/-- The target of BNNN: `(NNN + V[0]) mod 65536` (R103). -/
def offsetTarget (nnn : BitVec 12) (v0 : Byte) : Word := BitVec.ofNat 16 (nnn.toNat + v0.toNat)

/-- The effective address `I + k`, an exact integer (R56, R146). -/
def State.indexAddr (s : State) (k : Nat) : Nat := s.i.toNat + k

/-- The address of the glyph of a digit: `vx * 5`, with no mask (R142). -/
def glyphAddr (vx : Byte) : Nat := vx.toNat * 5

/-- The hundreds, tens and ones of a register, each in a byte of its own (R143). -/
def bcdDigits (vx : Byte) : List Byte :=
  [BitVec.ofNat 8 (vx.toNat / 100), BitVec.ofNat 8 (vx.toNat / 10 % 10), BitVec.ofNat 8 (vx.toNat % 10)]

/-- The linear bit offset of a sprite's top-left pixel: `vx + 64 * vy` (R150, R154). -/
def pixelOffset (vx vy : Byte) : Nat := vx.toNat + Config.fbWidth * vy.toNat

/-- `held`: the whole 8-bit value is the key code, and 16 or more is no member of `KEYS` (R170). -/
def State.keyHeld (s : State) (vx : Byte) : Bool := vx.toNat ≤ 15 && s.keys.getLsbD vx.toNat

end Sys2Proof.Machine
end

