-- ==== Sys2Proof/Machine/Alu.lean ====
section
/-! DEFINITION. Register load, arithmetic, logic, shifts and the random byte: 6XNN, 7XNN, 8XY0 to 8XY7, 8XYE,
CXNN (spec/42_alu.md). Operands are read before anything is written (R24). -/

namespace Sys2Proof.Machine

/-- `6XNN` LD VX, NN (R120). -/
def execLdImm (x : RegNum) (nn : Byte) (s : State) : Host.Outcome State Fault Refusal :=
  .next (s.setReg x nn).advance

/-- `7XNN` ADD VX, NN: `VF` is not written (R121). -/
def execAddImm (x : RegNum) (nn : Byte) (s : State) : Host.Outcome State Fault Refusal :=
  .next (s.setReg x (sum8 (s.reg x) nn)).advance

/-- `8XY0` LD VX, VY (R122). -/
def execLdReg (x y : RegNum) (s : State) : Host.Outcome State Fault Refusal :=
  .next (s.setReg x (s.reg y)).advance

/-- `8XY1` OR VX, VY: `VF` is not written (R123). -/
def execOrReg (x y : RegNum) (s : State) : Host.Outcome State Fault Refusal :=
  .next (s.setReg x (s.reg x ||| s.reg y)).advance

/-- `8XY2` AND VX, VY: `VF` is not written (R124). -/
def execAndReg (x y : RegNum) (s : State) : Host.Outcome State Fault Refusal :=
  .next (s.setReg x (s.reg x &&& s.reg y)).advance

/-- `8XY3` XOR VX, VY: `VF` is not written (R125). -/
def execXorReg (x y : RegNum) (s : State) : Host.Outcome State Fault Refusal :=
  .next (s.setReg x (s.reg x ^^^ s.reg y)).advance

/-- `8XY4` ADD VX, VY: `VF` is the carry (R126). -/
def execAddReg (x y : RegNum) (s : State) : Host.Outcome State Fault Refusal :=
  .next (s.setFlagThenReg x (carryFlag (s.reg x) (s.reg y)) (sum8 (s.reg x) (s.reg y))).advance

/-- `8XY5` SUB VX, VY: `VF` is NOT borrow (R127). -/
def execSubReg (x y : RegNum) (s : State) : Host.Outcome State Fault Refusal :=
  .next (s.setFlagThenReg x (noBorrowFlag (s.reg x) (s.reg y)) (diff8 (s.reg x) (s.reg y))).advance

/-- `8XY6` SHR VX: `VF` is old bit 0; `V[Y]` is neither read nor written (R88, R128). -/
def execShr (x _y : RegNum) (s : State) : Host.Outcome State Fault Refusal :=
  .next (s.setFlagThenReg x (lowBitFlag (s.reg x)) (shiftRight1 (s.reg x))).advance

/-- `8XY7` SUBN VX, VY: `V[Y] - V[X]`, `VF` is NOT borrow (R129). -/
def execSubnReg (x y : RegNum) (s : State) : Host.Outcome State Fault Refusal :=
  .next (s.setFlagThenReg x (noBorrowFlag (s.reg y) (s.reg x)) (diff8 (s.reg y) (s.reg x))).advance

/-- `8XYE` SHL VX: `VF` is old bit 7; `V[Y]` is neither read nor written (R88, R130). -/
def execShl (x _y : RegNum) (s : State) : Host.Outcome State Fault Refusal :=
  .next (s.setFlagThenReg x (highBitFlag (s.reg x)) (shiftLeft1 (s.reg x))).advance

/-- `CXNN` RND VX, NN: a fresh free byte AND `NN` (R132; log 2). -/
def execRnd (x : RegNum) (nn : Byte) (s : State) : Host.Outcome State Fault Refusal :=
  .next (s.draw.2.setReg x (s.draw.1 &&& nn)).advance

end Sys2Proof.Machine
end

