-- ==== Sys2Proof/Machine/Display.lean ====
section
/-! DEFINITION. The display instructions 00E0 and DXYN, and the read-outs `snapshot` and `tone`
(spec/44_display.md, spec/10_state.md rule R35). -/

namespace Sys2Proof.Machine

/-- `00E0` CLS: every framebuffer byte becomes 0 (R153). -/
def execCls (s : State) : Host.Outcome State Fault Refusal :=
  .next s.clearFramebuffer.advance

/-- `DXYN` DRW VX, VY, N: all sprite bytes are read first, then the rows are drawn, then `VF` is the collision
flag (R154). -/
def execDrw (x y : RegNum) (n : Fin 16) (s : State) : Host.Outcome State Fault Refusal :=
  match readBytes s (s.indexAddr 0) n.val with
  | .error c => finish s (.error c)
  | .ok rows =>
    match drawRows s (pixelOffset (s.reg x) (s.reg y)) rows with
    | .error c => finish s (.error c)
    | .ok (t, hit) => finish s (.ok (t.setReg flagReg (flagOf hit)).advance)

/-- The pixel of linear index `p`: bit `7 - (p mod 8)` of `Mem[3840 + p div 8]` (R150). -/
def State.pixel (s : State) (p : Nat) : Bool := (s.byte (Config.fbBase + p / 8)).getLsbD (7 - p % 8)

/-- The pixel in column `c` and row `r` (R150). -/
def State.pixelAt (s : State) (c r : Nat) : Bool := s.pixel (c + Config.fbWidth * r)

/-- The output `snapshot`: 32 rows of 64 pixels (R156). Reading it changes nothing. -/
def State.snapshot (s : State) : List (List Bool) :=
  (List.range Config.fbHeight).map (fun r => (List.range Config.fbWidth).map (fun c => s.pixelAt c r))

/-- The encoder of R156: the byte whose bit `7 - j` is the `j`-th pixel. -/
def packPixels (row : List Bool) : Byte :=
  (List.range 8).foldl (fun b j => if row.getD j false then b ||| (0x80 >>> j) else b) 0

/-- The output `tone`: `ST > 0` (R35, R164). -/
def State.tone (s : State) : Bool := s.st != 0

end Sys2Proof.Machine
end

