-- ==== Sys2Proof/Machine/Flow.lean ====
section
/-! DEFINITION. Control transfer: 00EE, 1NNN, 2NNN, BNNN (spec/40_flow.md). -/

namespace Sys2Proof.Machine

/-- `00EE` RET: `PC <- (Pop() + 2) mod 65536` (R100). -/
def execRet (s : State) : Host.Outcome State Fault Refusal :=
  match pop s with
  | .error c => finish s (.error c)
  | .ok (a, t) => finish s (.ok (t.jump (a + 2)))

/-- `1NNN` JP NNN: `PC <- NNN` (R101). -/
def execJp (nnn : BitVec 12) (s : State) : Host.Outcome State Fault Refusal :=
  .next (s.jump (addrImm nnn))

/-- `2NNN` CALL NNN: push the address of this instruction, `PC <- NNN` (R102). -/
def execCall (nnn : BitVec 12) (s : State) : Host.Outcome State Fault Refusal :=
  match push s s.pc with
  | .error c => finish s (.error c)
  | .ok t => finish s (.ok (t.jump (addrImm nnn)))

/-- `BNNN` JP V0, NNN: `PC <- NNN + V[0]`, not reduced mod 4096 (R103). -/
def execJpV0 (nnn : BitVec 12) (s : State) : Host.Outcome State Fault Refusal :=
  .next (s.jump (offsetTarget nnn (s.reg 0)))

end Sys2Proof.Machine
end

