-- ==== Sys2Proof/Machine/Index.lean ====
section
/-! DEFINITION. The index register and memory transfer: ANNN, FX1E, FX29, FX33, FX55, FX65
(spec/43_index_memory.md). -/

namespace Sys2Proof.Machine

/-- `ANNN` LD I, NNN (R140). -/
def execLdI (nnn : BitVec 12) (s : State) : Host.Outcome State Fault Refusal :=
  .next (s.setI nnn.toNat).advance

/-- `FX1E` ADD I, VX: `VF` is not written (R141). -/
def execAddI (x : RegNum) (s : State) : Host.Outcome State Fault Refusal :=
  .next (s.setI (s.i.toNat + (s.reg x).toNat)).advance

/-- `FX29` LD F, VX (R142). -/
def execLdF (x : RegNum) (s : State) : Host.Outcome State Fault Refusal :=
  .next (s.setI (glyphAddr (s.reg x))).advance

/-- `FX33` LD B, VX: three digits at `I`, `I + 1`, `I + 2`; `I` unchanged (R143). -/
def execLdB (x : RegNum) (s : State) : Host.Outcome State Fault Refusal :=
  match writeBytes s (s.indexAddr 0) (bcdDigits (s.reg x)) with
  | .error c => finish s (.error c)
  | .ok t => finish s (.ok t.advance)

/-- `FX55` LD [I], VX: `V0` to `VX` at `I` and up, then `I <- I + X + 1` (R144). -/
def execStoreRegs (x : RegNum) (s : State) : Host.Outcome State Fault Refusal :=
  match writeBytes s (s.indexAddr 0) (s.regsUpTo x) with
  | .error c => finish s (.error c)
  | .ok t => finish s (.ok (t.setI (s.indexAddr (x.val + 1))).advance)

/-- `FX65` LD VX, [I]: `V0` to `VX` from `I` and up, all reads first, then `I <- I + X + 1` (R145). -/
def execLoadRegs (x : RegNum) (s : State) : Host.Outcome State Fault Refusal :=
  match readBytes s (s.indexAddr 0) (x.val + 1) with
  | .error c => finish s (.error c)
  | .ok bs => finish s (.ok ((s.setRegs bs).setI (s.indexAddr (x.val + 1))).advance)

end Sys2Proof.Machine
end

