-- ==== Sys2Proof/Machine/Input.lean ====
section
/-! DEFINITION. Keypad input: EX9E, EXA1, FX0A (spec/46_input.md). -/

namespace Sys2Proof.Machine

/-- `EX9E` SKP VX (R170). -/
def execSkp (x : RegNum) (s : State) : Host.Outcome State Fault Refusal :=
  skipIf s (s.keyHeld (s.reg x))

/-- `EXA1` SKNP VX (R171). -/
def execSknp (x : RegNum) (s : State) : Host.Outcome State Fault Refusal :=
  skipIf s (!s.keyHeld (s.reg x))

/-- `FX0A` LD VX, K: suspend; `PC` advances at this step and `V[X]` is written at resolution only (R172). -/
def execLdVxK (x : RegNum) (s : State) : Host.Outcome State Fault Refusal :=
  .next { s with run := .waitingForKey x }.advance

end Sys2Proof.Machine
end

