-- ==== Sys2Proof/Machine/Skip.lean ====
section
/-! DEFINITION. Conditional skips on registers: 3XNN, 4XNN, 5XY0, 9XY0 (spec/41_skip.md). -/

namespace Sys2Proof.Machine

/-- `3XNN` SE VX, NN (R110). -/
def execSeImm (x : RegNum) (nn : Byte) (s : State) : Host.Outcome State Fault Refusal :=
  skipIf s (s.reg x == nn)

/-- `4XNN` SNE VX, NN (R111). -/
def execSneImm (x : RegNum) (nn : Byte) (s : State) : Host.Outcome State Fault Refusal :=
  skipIf s (s.reg x != nn)

/-- `5XY0` SE VX, VY (R112). -/
def execSeReg (x y : RegNum) (s : State) : Host.Outcome State Fault Refusal :=
  skipIf s (s.reg x == s.reg y)

/-- `9XY0` SNE VX, VY (R113). -/
def execSneReg (x y : RegNum) (s : State) : Host.Outcome State Fault Refusal :=
  skipIf s (s.reg x != s.reg y)

end Sys2Proof.Machine
end

