-- ==== Sys2Proof/Machine/Timer.lean ====
section
/-! DEFINITION. Timer access: FX07, FX15, FX18 (spec/45_timers.md). -/

namespace Sys2Proof.Machine

/-- `FX07` LD VX, DT (R160). -/
def execLdVxDt (x : RegNum) (s : State) : Host.Outcome State Fault Refusal :=
  .next (s.setReg x s.dt).advance

/-- `FX15` LD DT, VX (R161). -/
def execLdDtVx (x : RegNum) (s : State) : Host.Outcome State Fault Refusal :=
  .next { s with dt := s.reg x }.advance

/-- `FX18` LD ST, VX (R162). -/
def execLdStVx (x : RegNum) (s : State) : Host.Outcome State Fault Refusal :=
  .next { s with st := s.reg x }.advance

/-- One timer at a `Tick`: down by 1, and not below 0 (R163). -/
def countDown (t : Byte) : Byte := if t = 0 then 0 else t - 1

end Sys2Proof.Machine
end

