-- ==== Sys2Proof/Machine/Events.lean ====
section
/-! DEFINITION. The six events of spec/10_state.md rule R33: `Step` (R34), `Tick` (R163), the key events
(R173 to R175) and `Reset` (R200). -/

namespace Sys2Proof.Machine

/-- The fetch of a step: the big-endian word at `PC` (R54). -/
def fetch (s : State) : Except Cause Word := memRead2 s s.pc.toNat

/-- A word that is no instruction: a no-op that moves past it, or in strict mode a fault (R87, R185). -/
def execUnmapped (op : Word) (s : State) : Host.Outcome State Fault Refusal :=
  if s.cfg.strictUnmapped then finish s (.error (.unmappedOpcode op)) else .next s.advance

/-- What a fetched word does: the instruction it decodes to, or nothing (R34). -/
def execWord (op : Word) (s : State) : Host.Outcome State Fault Refusal :=
  match decode op with
  | .ok i => exec i s
  | .error _ => execUnmapped op s

/-- The event `Step`: one instruction when `Running`, and no change otherwise (R33, R34). -/
def stepEvent (s : State) : Host.Outcome State Fault Refusal :=
  match s.run with
  | .running =>
    match fetch s with
    | .error c => finish s (.error c)
    | .ok op => execWord op s
  | .waitingForKey _ => .next s
  | .faulted _ => .next s

/-- `RUN` is `Faulted` (R32). -/
def State.isFaulted (s : State) : Bool :=
  match s.run with
  | .running => false
  | .waitingForKey _ => false
  | .faulted _ => true

/-- The event `Tick`: both timers count down, also in a key wait, not after a fault (R163). -/
def State.tick (s : State) : State :=
  if s.isFaulted then s else { s with dt := countDown s.dt, st := countDown s.st }

/-- The event `KeyDown(c)`; it never resumes a suspended engine (R173). -/
def State.keyDown (s : State) (c : KeyCode) : State :=
  if s.isFaulted then s else { s with keys := s.keys ||| BitVec.twoPow 16 c.val }

/-- The event `KeyUp(c)` (R174). -/
def State.keyUp (s : State) (c : KeyCode) : State :=
  if s.isFaulted then s else { s with keys := s.keys &&& ~~~(BitVec.twoPow 16 c.val) }

/-- The event `ResolveKeyWait(c)`: the only way out of a key wait; it does not touch `KEYS` (R175). -/
def State.resolveKeyWait (s : State) (c : KeyCode) : State :=
  match s.run with
  | .running => s
  | .waitingForKey x => { s.setReg x (BitVec.ofNat 8 c.val) with run := .running }
  | .faulted _ => s

/-- The event `Reset(image)`: all state anew, or no state when the image is too long (R200, R201). -/
def resetEvent (image : List Byte) (s : State) : Host.Outcome State Fault Refusal :=
  if imageFits image then .next (s.restart image) else .fault (.imageRejected image.length)

/-- The transition of an event (R33). -/
def event (e : Event) (s : State) : Host.Outcome State Fault Refusal :=
  match e with
  | .step => stepEvent s
  | .tick => .next s.tick
  | .keyDown c => .next (s.keyDown c)
  | .keyUp c => .next (s.keyUp c)
  | .resolveKeyWait c => .next (s.resolveKeyWait c)
  | .reset image => resetEvent image s

/-- The event the host issues next: the head of the schedule, and `Step` when none is left (log 1). -/
def State.nextEvent (s : State) : Event := s.schedule.headD .step

/-- The state with that event taken from the schedule. -/
def State.takeEvent (s : State) : State := { s with schedule := s.schedule.tail }

/-- `PC`, or the reset value of `PC` where no instruction can be fetched at `PC` (for `withFetchWord`). -/
def State.fetchablePc (s : State) : Word :=
  if s.pc.toNat + 1 < Config.memSize then s.pc else BitVec.ofNat 16 Config.progBase

end Sys2Proof.Machine
end

