-- ==== Sys2Proof/Machine/Step.lean ====
section
/-! DEFINITION. One transition of the whole machine, and placing an instruction where the next one fetches
(spec/10_state.md rules R33, R34; log 1, log 5). -/

namespace Sys2Proof.Machine

/-- The next event of the host's schedule acts on the block; with an empty schedule that is `Step`. -/
def step (s : State) : Host.Outcome State Fault Refusal := event s.nextEvent s.takeEvent

/-- The state whose very next `step` fetches and runs the instruction of these bits: its two bytes stand at
`PC`, high byte first (R80), the engine is `Running` and the next event is `Step`. -/
def State.withFetchWord (s : State) (nbits w : Nat) : State :=
  { s with
    mem := Memory.writeList s.cfg.font s.mem s.fetchablePc.toNat
      [hi8 (tableWord nbits w), lo8 (tableWord nbits w)]
    pc := s.fetchablePc
    run := .running
    schedule := [] }

end Sys2Proof.Machine
end

