-- ==== Sys2Proof/Machine/EndOfRun.lean ====
section
/-! DEFINITION. The end of a run (spec/70_reset_and_hazards.md rule R208). There is no halt instruction, and the rule
asks a model for an observation of its own (log 22). -/

namespace Sys2Proof.Machine

/-- Where a run has come to an end (R208). -/
inductive RunEnd where
  /-- It idles in a jump to itself at this address. -/
  | selfJump (a : Nat)
  /-- It waits in FX0A for a key for `V[x]`, and goes on at `ResolveKeyWait`. -/
  | keyWait (x : RegNum)
  /-- It stopped in a fault. -/
  | fault (c : Cause)
  deriving DecidableEq, Repr

/-- `PC = a` and `Mem[a..a+1]` encode a jump whose target is `a`: 1NNN as R208 has it, or BNNN, which idles in the
same way. -/
def State.jumpsToItself (s : State) : Bool :=
  match fetch s with
  | .error _ => false
  | .ok op =>
    match decode op with
    | .ok (.jp nnn) => addrImm nnn == s.pc
    | .ok (.jpV0 nnn) => offsetTarget nnn (s.reg 0) == s.pc
    | _ => false

/-- The end-of-run observation: none while `Step` still makes progress (R208). Reading it changes nothing. -/
def State.runEnd (s : State) : Option RunEnd :=
  match s.run with
  | .running => if s.jumpsToItself then some (.selfJump s.pc.toNat) else none
  | .waitingForKey x => some (.keyWait x)
  | .faulted c => some (.fault c)

end Sys2Proof.Machine
end

