-- ==== Sys2Proof/Safety.lean ====
section
/-! DEFINITION. The terms that claims use: a safe run, the invariant of the machine, which instruction may write
which element of the state (the table of spec/10_state.md rule R20), and what DXYN touches
(spec/44_display.md rule R154). -/

namespace Sys2Proof.Machine

/-! ## The invariant -/

/-- What a recorded fault can be: an overrun address between 4096 and 65535 + 15 (R180), and an unmapped word
in strict mode only (R185). -/
def Run.infoOk (strict : Bool) : Run → Prop
  | .faulted (.addressOverrun a) => 4096 ≤ a ∧ a ≤ 65550
  | .faulted (.unmappedOpcode op) => strict = true ∧ wordMapped op = false
  | .faulted .stackOverflow => True
  | .faulted .stackUnderflow => True
  | .running => True
  | .waitingForKey _ => True

/-- `SP = STACK_HI - 2 - 2 * depth` for a depth between 0 and the capacity (R28). -/
def State.stackOk (s : State) : Prop :=
  ∃ depth, depth ≤ s.cfg.cap ∧ s.sp.toNat + 2 + 2 * depth = s.cfg.stackHi

/-- The invariant: admissible parameters (R58), memory in canonical form and inside 4096 cells (R31), a legal
stack pointer (R28), a legal fault record (R180). -/
structure State.Inv (s : State) : Prop where
  config : s.cfg.wf
  memory : Memory.wf s.cfg.font s.mem
  stack : s.stackOk
  info : s.run.infoOk s.cfg.strictUnmapped

/-- `k` events of the schedule end in a state with no fault: a run that may count as successful (R186). -/
def SafeRun (k : Nat) (s : State) : Prop :=
  ∃ t, Host.Core.run Sys2Proof.core k s = .next t ∧ t.isFaulted = false

/-- The run has come to its end after `k` events of the schedule, in a jump to itself at `a`: a successful end
(R208, log 22). -/
def EndsAt (k : Nat) (s : State) (a : Nat) : Prop :=
  ∃ t, Host.Core.run Sys2Proof.core k s = .next t ∧ t.runEnd = some (.selfJump a)

/-! ## Instruction words as the instruction rules write them, apart from the encoder -/

/-- Format A: `base | NNN`. -/
def opA (base : Word) (nnn : BitVec 12) : Word := base ||| nnn.setWidth 16

/-- Format XI: `base | X << 8 | NN`. -/
def opXI (base : Word) (x : RegNum) (nn : Byte) : Word := base ||| BitVec.ofNat 16 x.val <<< 8 ||| nn.setWidth 16

/-- Format XY: `base | X << 8 | Y << 4`. -/
def opXY (base : Word) (x y : RegNum) : Word :=
  base ||| BitVec.ofNat 16 x.val <<< 8 ||| BitVec.ofNat 16 y.val <<< 4

/-- Format XS: `base | X << 8`. -/
def opXS (base : Word) (x : RegNum) : Word := base ||| BitVec.ofNat 16 x.val <<< 8

/-! ## The framebuffer bytes of a sprite (R154) -/

/-- The framebuffer bytes that a sprite row at the bit offset `b` accesses, in order: the second exactly when
the offset is not a multiple of 8. -/
def rowAccesses (b : Nat) : List Nat :=
  if b % 8 = 0 then [3840 + b / 8] else [3840 + b / 8, 3840 + b / 8 + 1]

/-- The framebuffer bytes that `n` rows from the bit offset `b` access, in order. -/
def rowsAccesses (b n : Nat) : List Nat := (List.range n).flatMap (fun r => rowAccesses (b + 64 * r))

/-! ## Who writes what (R20, R22, R60) -/

/-- The instruction may write `V[k]`: its destination, `VF` for the six that set a flag, the range of FX65.
FX0A writes no register: `ResolveKeyWait` does. -/
def mayWriteReg (i : Instr) (k : RegNum) : Bool :=
  match i with
  | .ldImm x _ | .addImm x _ | .rnd x _ | .ldVxDt x => k == x
  | .ldReg x _ | .orReg x _ | .andReg x _ | .xorReg x _ => k == x
  | .addReg x _ | .subReg x _ | .subnReg x _ | .shr x _ | .shl x _ => k == x || k == flagReg
  | .drw _ _ _ => k == flagReg
  | .loadRegs x => k.val ≤ x.val
  | .cls | .ret | .jp _ | .call _ | .jpV0 _ => false
  | .seImm _ _ | .sneImm _ _ | .seReg _ _ | .sneReg _ _ | .skp _ | .sknp _ => false
  | .ldI _ | .addI _ | .ldF _ | .ldB _ | .storeRegs _ => false
  | .ldVxK _ | .ldDtVx _ | .ldStVx _ => false

/-- The instruction, executed in this state, may write `Mem[a]` (R60): for DXYN the one or two framebuffer bytes of each
row. -/
def mayWriteByte (i : Instr) (s : State) (a : Nat) : Bool :=
  match i with
  | .cls => 3840 ≤ a && a < 4096
  | .drw x y n => decide (a ∈ rowsAccesses ((s.reg x).toNat + 64 * (s.reg y).toNat) n.val)
  | .call _ => a == s.sp.toNat || a == s.sp.toNat + 1
  | .ldB _ => s.i.toNat ≤ a && a ≤ s.i.toNat + 2
  | .storeRegs x => s.i.toNat ≤ a && a ≤ s.i.toNat + x.val
  | .ldImm _ _ | .addImm _ _ | .rnd _ _ | .ldVxDt _ => false
  | .ldReg _ _ | .orReg _ _ | .andReg _ _ | .xorReg _ _ => false
  | .addReg _ _ | .subReg _ _ | .subnReg _ _ | .shr _ _ | .shl _ _ => false
  | .ret | .jp _ | .jpV0 _ => false
  | .seImm _ _ | .sneImm _ _ | .seReg _ _ | .sneReg _ _ | .skp _ | .sknp _ => false
  | .ldI _ | .addI _ | .ldF _ | .loadRegs _ => false
  | .ldVxK _ | .ldDtVx _ | .ldStVx _ => false

/-- The six instructions that write `VF` as a side effect (R22). -/
def setsFlag (i : Instr) : Prop :=
  (∃ x y, i = .addReg x y ∨ i = .subReg x y ∨ i = .subnReg x y ∨ i = .shr x y ∨ i = .shl x y) ∨
    ∃ x y n, i = .drw x y n

/-! ## What DXYN touches (R154) -/

/-- The addresses DXYN accesses, in order: the sprite bytes, then the framebuffer bytes row by row. -/
def drawAccesses (s : State) (x y : RegNum) (n : Fin 16) : List Nat :=
  (List.range n.val).map (fun r => s.i.toNat + r) ++
    rowsAccesses ((s.reg x).toNat + 64 * (s.reg y).toNat) n.val

/-- A sprite row at the bit offset `b` has a 1-bit over the pixel `p`: bit `7 - j` lies over `b + j`. -/
def rowCovers (row : Byte) (b p : Nat) : Bool := b ≤ p && p < b + 8 && row.getLsbD (7 - (p - b))

/-- The sprite of DXYN has a 1-bit over the pixel of linear index `p`. -/
def spriteCovers (s : State) (x y : RegNum) (n : Fin 16) (p : Nat) : Bool :=
  (List.range n.val).any (fun r =>
    rowCovers (s.byte (s.i.toNat + r)) ((s.reg x).toNat + 64 * ((s.reg y).toNat + r)) p)

end Sys2Proof.Machine
end

