-- ==== Sys2Proof/Certificates/Slice0/Obligations.lean ====
section
/-! DEFINITION. The statements for the provers, in the order of the rules of spec/. A statement about an
instruction names its frame by an equation `t = s with the fields that may differ`: every field not named, memory
among them, is the same, and a field that is named has its value stated beside it. A fault of spec/60_exceptions.md
rule R180 is a NEXT state (R186, log 8). -/

open Sys2Proof Sys2Proof.Machine

/-! ## Encoding (spec/30_encoding.md) -/

/-- R80, R84, R90: decoding the word of an instruction gives the instruction back, with every operand, and the
decoder takes exactly its two bytes. -/
def Obligations.DecodeOfEncodedInstruction : Prop :=
  ∀ (i : Instr) (rest : List Byte),
    decode (encode i) = .ok i ∧ decodeBytes (encodeBytes i ++ rest) = .ok (i, rest)

/-- R84, R90: a word that decodes is the word of the instruction it decodes to, so a word has one meaning and no
bit of it is dropped. -/
def Obligations.EncodeOfDecodedWord : Prop :=
  ∀ (op : Word) (i : Instr), decode op = .ok i → encode i = op

/-- R84, R85: the decoder accepts a word exactly when the opcode map has a row for it, and gives an instruction of
that row. -/
def Obligations.DecoderFollowsOpcodeMap : Prop :=
  ∀ op : Word,
    (wordMapped op = true → ∃ i, decode op = .ok i ∧ i.row.selects op = true) ∧
    (wordMapped op = false → decode op = .error (.unmapped op))

/-- R85: 34 rows, and no word selects two of them. -/
def Obligations.OpcodeRowsNeverOverlap : Prop :=
  opcodeMap.length = 34 ∧
  ∀ op : Word, ∀ r ∈ opcodeMap, ∀ q ∈ opcodeMap, r.selects op = true → q.selects op = true → r = q

/-- R86: the unmapped words, family by family. -/
def Obligations.UnmappedWordsByFamily : Prop :=
  ∀ op : Word, decode op = .error (.unmapped op) ↔
    (op.toNat / 4096 = 0x0 ∧ op.toNat ≠ 0x00E0 ∧ op.toNat ≠ 0x00EE) ∨
    ((op.toNat / 4096 = 0x5 ∨ op.toNat / 4096 = 0x9) ∧ op.toNat % 16 ≠ 0) ∨
    (op.toNat / 4096 = 0x8 ∧ op.toNat % 16 ∈ [0x8, 0x9, 0xA, 0xB, 0xC, 0xD, 0xF]) ∨
    (op.toNat / 4096 = 0xE ∧ op.toNat % 256 ∉ [0x9E, 0xA1]) ∨
    (op.toNat / 4096 = 0xF ∧
      op.toNat % 256 ∉ [0x07, 0x0A, 0x15, 0x18, 0x1E, 0x29, 0x33, 0x55, 0x65])

/-- R84, R90: words the spec writes out, one or more of each format, decode to the instruction it names. A sanity
statement. -/
def Obligations.WordsOfTheSpecDecode : Prop :=
  decode 0x00E0 = .ok .cls ∧ decode 0x00EE = .ok .ret ∧ decode 0x1300 = .ok (.jp 0x300) ∧
  decode 0x220C = .ok (.call 0x20C) ∧ decode 0xA2F0 = .ok (.ldI 0x2F0) ∧
  decode 0x3211 = .ok (.seImm 2 0x11) ∧ decode 0xC50F = .ok (.rnd 5 0x0F) ∧
  decode 0x8374 = .ok (.addReg 3 7) ∧ decode 0xDAB5 = .ok (.drw 10 11 5) ∧
  decode 0xE19E = .ok (.skp 1) ∧ decode 0xF10A = .ok (.ldVxK 1) ∧ decode 0xFF55 = .ok (.storeRegs 15)

/-! ## The step and the events (spec/10_state.md) -/

/-- R33, R34: when the engine runs and the two bytes at `PC` decode to an instruction, the step is that
instruction's meaning, whether the host's schedule is empty or its head is `Step` (log 1). -/
def Obligations.StepRunsDecodedInstruction : Prop :=
  ∀ (s : State) (i : Instr), s.run = .running → s.pc.toNat + 1 < 4096 →
    decode (wordOf (s.byte s.pc.toNat) (s.byte (s.pc.toNat + 1))) = .ok i →
    (s.schedule = [] → step s = exec i s) ∧
    ∀ rest, s.schedule = .step :: rest → step s = exec i { s with schedule := rest }

/-- R87, R185: an unmapped word moves past itself and changes nothing else, or in strict mode faults with the word
recorded. The parameter and its default are decision D4 of the spec. -/
def Obligations.UnmappedWordIsNoOpOrStrictFault : Prop :=
  ∀ (s : State) (op : Word), s.run = .running → s.pc.toNat + 1 < 4096 →
    op = wordOf (s.byte s.pc.toNat) (s.byte (s.pc.toNat + 1)) → wordMapped op = false →
    (s.cfg.strictUnmapped = false → event .step s = .next { s with pc := s.pc + 2 }) ∧
    (s.cfg.strictUnmapped = true → event .step s = .next { s with run := .faulted (.unmappedOpcode op) })

/-- R181: a fetch at `PC >= 4095` raises AddressOverrun with `PC`, or with 4096 when `PC = 4095`; nothing is
executed and `PC` keeps the bad value. That nothing else changes is decision D13 of the spec. -/
def Obligations.FetchPastMemoryFaults : Prop :=
  ∀ s : State, s.run = .running →
    (4096 ≤ s.pc.toNat → event .step s = .next { s with run := .faulted (.addressOverrun s.pc.toNat) }) ∧
    (s.pc.toNat = 4095 → event .step s = .next { s with run := .faulted (.addressOverrun 4096) })

/-- R64: a word stored over the next instruction is the word that the very next fetch reads, for each of the five
instructions that store: FX55 (R144: two of its registers), FX33 (R143: two of its digits), 00E0 (R153: 0), 2NNN that
jumps to the slot it pushes (R102: its own address) and DXYN (R154: the old pixels XOR the sprite, the high byte's
leftmost pixel first). That fetch is coherent is decision D20 of the spec (log 18), the value pushed D11 (log 10), the
pixel order D16 (log 11). For an `SP` outside the stack region, which no run reaches (R28), the clause on 2NNN is the
model's own choice (log 7). -/
def Obligations.StoredWordIsFetchedNext : Prop :=
  (∀ (s t : State) (x k l : Fin 16), s.i.toNat + x.val < 4096 → exec (.storeRegs x) s = .next t →
    s.pc.toNat + 2 = s.i.toNat + k.val → l.val = k.val + 1 → l ≤ x →
    fetch t = .ok (wordOf (s.reg k) (s.reg l))) ∧
  (∀ (s t : State) (x : RegNum), s.i.toNat + 2 < 4096 → exec (.ldB x) s = .next t →
    (s.pc.toNat + 2 = s.i.toNat → fetch t = .ok (wordOf (BitVec.ofNat 8 ((s.reg x).toNat / 100))
      (BitVec.ofNat 8 ((s.reg x).toNat / 10 % 10)))) ∧
    (s.pc.toNat + 2 = s.i.toNat + 1 → fetch t = .ok (wordOf (BitVec.ofNat 8 ((s.reg x).toNat / 10 % 10))
      (BitVec.ofNat 8 ((s.reg x).toNat % 10))))) ∧
  (∀ s t : State, exec .cls s = .next t → 3840 ≤ s.pc.toNat + 2 → s.pc.toNat + 3 < 4096 → fetch t = .ok 0) ∧
  (∀ (s t : State) (nnn : BitVec 12), s.cfg.stackLo ≤ s.sp.toNat → s.sp.toNat + 1 < 4096 →
    nnn.toNat = s.sp.toNat → exec (.call nnn) s = .next t → fetch t = .ok s.pc) ∧
  (∀ (s t : State) (x y : RegNum) (n : Fin 16), (∀ a ∈ drawAccesses s x y n, a < 4096) →
    exec (.drw x y n) s = .next t → 3840 ≤ s.pc.toNat + 2 → s.pc.toNat + 3 < 4096 →
    ∃ w, fetch t = .ok w ∧ ∀ j, j < 16 → w.getLsbD (15 - j) =
      (s.pixel (8 * (s.pc.toNat + 2 - 3840) + j) ^^ spriteCovers s x y n (8 * (s.pc.toNat + 2 - 3840) + j)))

/-- R208: a jump to self idles: the `Step` that executes 1NNN at the address NNN changes nothing. It is an end of a run, and
`Step` changes nothing in exactly the states where the end-of-run observation `State.runEnd` holds. The observation
is the model's own (decision D26 of the spec, log 22). -/
def Obligations.JumpToSelfIdles : Prop :=
  (∀ (s : State) (nnn : BitVec 12), s.run = .running → s.pc.toNat = nnn.toNat → nnn.toNat < 4095 →
    s.byte nnn.toNat = hi8 (encode (.jp nnn)) → s.byte (nnn.toNat + 1) = lo8 (encode (.jp nnn)) →
    event .step s = .next s ∧ s.runEnd = some (.selfJump nnn.toNat)) ∧
  ∀ s : State, event .step s = .next s ↔ s.runEnd ≠ none

/-- R163: `Tick` takes 1 from each timer that is not 0 and touches nothing else, in `Running` and in a key wait;
after a fault it changes nothing (decision D13 of the spec). -/
def Obligations.TickCountsBothTimersDown : Prop :=
  ∀ s : State,
    (s.isFaulted = false → ∃ t, event .tick s = .next t ∧ t = { s with dt := t.dt, st := t.st } ∧
      t.dt.toNat = s.dt.toNat - 1 ∧ t.st.toNat = s.st.toNat - 1) ∧
    (s.isFaulted = true → event .tick s = .next s)

/-- R163, S8: `n` ticks in a row take `n` from each timer and stop at 0. Said of a run whose schedule is those ticks and
nothing else; the schedule is the model's own field, and it ends empty (log 1). -/
def Obligations.RepeatedTicksStopAtZero : Prop :=
  ∀ (n : Nat) (s : State), s.isFaulted = false → s.schedule = List.replicate n .tick →
    ∃ t, Host.Core.run Sys2Proof.core n s = .next t ∧ t = { s with dt := t.dt, st := t.st, schedule := [] } ∧
      t.dt.toNat = s.dt.toNat - n ∧ t.st.toNat = s.st.toNat - n

/-- R163, R190: `Tick` is independent of the instructions: it commutes with every one that does not access a
timer. For CXNN this compares two orders in which both draw the same byte, the one the counter `draws` selects, which
is the model's own (log 2). -/
def Obligations.TickCommutesWithInstructions : Prop :=
  ∀ (i : Instr) (s t : State), s.isFaulted = false → t.isFaulted = false →
    (∀ x, i ≠ .ldVxDt x ∧ i ≠ .ldDtVx x ∧ i ≠ .ldStVx x) →
    exec i s = .next t → exec i s.tick = .next t.tick

/-- R173, R174: `KeyDown(c)` sets bit `c` of `KEYS` and `KeyUp(c)` clears it; nothing else changes, and `RUN` does
not. After a fault both are ignored (decision D13 of the spec). -/
def Obligations.KeyEventsSetAndClearOneKey : Prop :=
  ∀ (s : State) (c : KeyCode),
    (s.isFaulted = false →
      (∃ t, event (.keyDown c) s = .next t ∧ t = { s with keys := t.keys } ∧
        ∀ k : KeyCode, t.keys.getLsbD k.val = (k == c || s.keys.getLsbD k.val)) ∧
      (∃ t, event (.keyUp c) s = .next t ∧ t = { s with keys := t.keys } ∧
        ∀ k : KeyCode, t.keys.getLsbD k.val = (k != c && s.keys.getLsbD k.val))) ∧
    (s.isFaulted = true → event (.keyDown c) s = .next s ∧ event (.keyUp c) s = .next s)

/-- R175: `ResolveKeyWait(c)` writes the waiting register and resumes, and leaves `KEYS` alone; in any other run
state it changes nothing (decision D19 of the spec). -/
def Obligations.ResolveDeliversKeyAndResumes : Prop :=
  ∀ (s : State) (c : KeyCode),
    (∀ x, s.run = .waitingForKey x → ∃ t, event (.resolveKeyWait c) s = .next t ∧
      t = { s with v := t.v, run := .running } ∧
      ∀ k, t.reg k = if k = x then BitVec.ofNat 8 c.val else s.reg k) ∧
    ((∀ x, s.run ≠ .waitingForKey x) → event (.resolveKeyWait c) s = .next s)

/-- R177: the suspension protocol: its three edges, FX0A into the wait, `ResolveKeyWait` out of it and `Step` within it,
and that no event makes another edge between the two states but `Reset`, which leaves every run state (R32, R33,
R200). -/
def Obligations.SuspensionProtocol : Prop :=
  (∀ (s : State) (x : RegNum), s.run = .running → s.pc.toNat + 1 < 4096 →
    decode (wordOf (s.byte s.pc.toNat) (s.byte (s.pc.toNat + 1))) = .ok (.ldVxK x) →
    ∃ t, event .step s = .next t ∧ t.run = .waitingForKey x) ∧
  (∀ (s : State) (x : RegNum) (c : KeyCode), s.run = .waitingForKey x →
    ∃ t, event (.resolveKeyWait c) s = .next t ∧ t.run = .running ∧ t.reg x = BitVec.ofNat 8 c.val) ∧
  (∀ (s : State) (x : RegNum), s.run = .waitingForKey x → event .step s = .next s) ∧
  (∀ (s t : State) (x : RegNum) (e : Event), s.run = .waitingForKey x → event e s = .next t →
    t.run = .waitingForKey x ∨ t.run = .running ∧ ((∃ c, e = .resolveKeyWait c) ∨ ∃ image, e = .reset image)) ∧
  (∀ (s t : State) (x : RegNum) (e : Event), s.run = .running → event e s = .next t →
    t.run = .waitingForKey x →
    e = .step ∧ decode (wordOf (s.byte s.pc.toNat) (s.byte (s.pc.toNat + 1))) = .ok (.ldVxK x))

/-! ## Faults (spec/60_exceptions.md) -/

/-- R186: a `Step` that ends in a fault changed `RUN` and nothing else, whatever the instruction and however far it
had come. All-or-nothing is decision D13 of the spec. -/
def Obligations.FaultingStepHasNoOtherEffect : Prop :=
  ∀ s t : State, event .step s = .next t → t.isFaulted = true → t = { s with run := t.run }

/-- R189: a faulted block is changed by no event but `Reset`, which makes a running one of it. That `Faulted` is
absorbing is decision D13 of the spec. -/
def Obligations.FaultedBlockIsAbsorbing : Prop :=
  ∀ (s : State) (e : Event), s.isFaulted = true →
    (event e s = .next s ∧ (∀ image, e ≠ .reset image)) ∨
    (∃ image, e = .reset image ∧
      ((∃ t, event e s = .next t ∧ t.run = .running) ∨ event e s = .fault (.imageRejected image.length)))

/-- R180, R188, R196: which instruction raises which fault, and that no other does. -/
def Obligations.OnlyListedInstructionsFault : Prop :=
  ∀ (i : Instr) (s t : State) (c : Cause), s.Inv → s.run = .running → exec i s = .next t →
    t.run = .faulted c →
    (c = .stackOverflow ∧ ∃ nnn, i = .call nnn) ∨ (c = .stackUnderflow ∧ i = .ret) ∨
    (∃ a, c = .addressOverrun a ∧
      ((∃ x y n, i = .drw x y n) ∨ ∃ x, i = .ldB x ∨ i = .storeRegs x ∨ i = .loadRegs x))

/-! ## Reset (spec/70_reset_and_hazards.md) -/

/-- R200, R201, R36: `Reset(image)` makes all state anew for an image of at most 3328 bytes and rejects a longer
one. The zero values are decision D9 and the acceptance of every content is decision D24 of the spec. -/
def Obligations.ResetBuildsAllState : Prop :=
  ∀ (s : State) (image : List Byte), s.cfg.wf →
    (image.length ≤ 3328 → ∃ t, event (.reset image) s = .next t ∧
      (∀ a, a < 4096 → t.byte a =
        if h : a < 80 then s.cfg.font[a] else if 512 ≤ a ∧ a < 512 + image.length then image.getD (a - 512) 0
        else 0) ∧
      (∀ k, t.reg k = 0) ∧ t.i = 0 ∧ t.pc.toNat = 512 ∧ t.sp.toNat + 2 = s.cfg.stackHi ∧ t.dt = 0 ∧ t.st = 0 ∧
      t.keys = 0 ∧ t.run = .running ∧ t.cfg = s.cfg) ∧
    (3328 < image.length → event (.reset image) s = .fault (.imageRejected image.length))

/-- R36: the state after reset, element by element, and that it is what `Reset` with the empty image gives. The
zeros and `Running` are decision D9 of the spec. The font bytes and `SP = 0x1FE` rest on the default parameters that
the model puts into `State.reset` (decisions D1, D2 and D10 of the spec; log 3). -/
def Obligations.ResetStateValues : Prop :=
  event (.reset []) State.reset = .next State.reset ∧
  (∀ a, State.reset.byte a = if h : a < 80 then defaultFont[a] else 0) ∧ (∀ k, State.reset.reg k = 0) ∧
  State.reset.i = 0 ∧ State.reset.pc = 0x200 ∧ State.reset.sp = 0x1FE ∧ State.reset.dt = 0 ∧
  State.reset.st = 0 ∧ State.reset.keys = 0 ∧ State.reset.run = .running ∧ State.reset.tone = false

/-! ## Invariants -/

/-- The invariant holds after reset. -/
def Obligations.ResetStateMeetsTheInvariant : Prop := State.reset.Inv

/-- R28, R31, R58, R180: every event of every schedule keeps the invariant: memory stays canonical and inside 4096
cells, `SP` stays `STACK_HI - 2 - 2 * depth` with a depth between 0 and the capacity, a recorded fault stays a legal
one. From every state that meets it, reached or not. -/
def Obligations.StepKeepsTheInvariant : Prop :=
  ∀ s t : State, s.Inv → step s = .next t → t.Inv

/-- R5, R200: the parameters are fixed for the life of the machine. -/
def Obligations.ParametersNeverChange : Prop := ∀ s t : State, step s = .next t → t.cfg = s.cfg

/-! ## Who writes what (spec/10_state.md) -/

/-- R20 to R22: an instruction changes no general register but its destination, `VF` if it is one of the six that
set the flag, and the range of FX65. -/
def Obligations.RegistersChangeOnlyAtDestinations : Prop :=
  ∀ (i : Instr) (s t : State) (k : RegNum), exec i s = .next t → t.reg k ≠ s.reg k → mayWriteReg i k = true

/-- R22: each of the six instructions that set the flag leaves 0 or 1 in `VF`, unless `VF` is also its
destination. -/
def Obligations.FlagIsZeroOrOne : Prop :=
  ∀ (i : Instr) (s t : State), setsFlag i → (∀ x y, x = flagReg →
      i ≠ .addReg x y ∧ i ≠ .subReg x y ∧ i ≠ .subnReg x y ∧ i ≠ .shr x y ∧ i ≠ .shl x y) →
    exec i s = .next t → t.isFaulted = false → t.reg flagReg = 0 ∨ t.reg flagReg = 1

/-- R20, R60: an instruction changes no byte of memory but those it stores to; for DXYN those are the one or two
framebuffer bytes of each row. -/
def Obligations.MemoryChangesOnlyWhereStored : Prop :=
  ∀ (i : Instr) (s t : State) (a : Nat), exec i s = .next t → t.byte a ≠ s.byte a → mayWriteByte i s a = true

/-- R20, R38: no instruction writes `KEYS`; the timers, `I`, `SP` and the wait state are written by the instructions
R20 lists and by no other; the parameters are changed by none (R5). The clauses on `schedule` and `draws` are about the
model's own two fields (log 1, log 2): no instruction reads the host's events, and CXNN alone uses up a draw. -/
def Obligations.SpecialRegistersHaveTheirWriters : Prop :=
  ∀ (i : Instr) (s t : State), exec i s = .next t →
    t.keys = s.keys ∧ t.cfg = s.cfg ∧ t.schedule = s.schedule ∧
    (t.dt ≠ s.dt → ∃ x, i = .ldDtVx x) ∧ (t.st ≠ s.st → ∃ x, i = .ldStVx x) ∧
    (t.sp ≠ s.sp → i = .ret ∨ ∃ nnn, i = .call nnn) ∧
    (t.i ≠ s.i → (∃ nnn, i = .ldI nnn) ∨
      ∃ x, i = .addI x ∨ i = .ldF x ∨ i = .storeRegs x ∨ i = .loadRegs x) ∧
    (∀ x, s.run = .running → t.run = .waitingForKey x → i = .ldVxK x) ∧
    (t.draws ≠ s.draws → ∃ x nn, i = .rnd x nn)

/-- R27: the largest `PC` that an instruction other than 00EE can produce is 0x10FE, so `PC` wraps at 65536 by 00EE
alone. -/
def Obligations.PcWrapsOnlyByReturn : Prop :=
  ∀ (i : Instr) (s t : State), i ≠ .ret → s.pc.toNat + 1 < 4096 → exec i s = .next t → t.pc.toNat ≤ 0x10FE

/-- R29, R38: no instruction and no event lets `ST` influence anything but `ST`: two blocks that differ in `ST` alone
go on differing in `ST` alone. For CXNN this compares two blocks that draw the same byte, the one the counter `draws`
selects, which is the model's own (log 2). -/
def Obligations.SoundTimerInfluencesNothingElse : Prop :=
  ∀ (e : Event) (s t : State) (b : Byte), event e s = .next t →
    ∃ c, event e { s with st := b } = .next { t with st := c }

/-! ## Control transfer (spec/40_flow.md) and skips (spec/41_skip.md, spec/46_input.md) -/

/-- R101, R103: 1NNN jumps to NNN, BNNN to NNN + V0 without any reduction; nothing but `PC` changes. With the words the
rules give them. -/
def Obligations.JumpsSetTheProgramCounter : Prop :=
  ∀ (s : State) (nnn : BitVec 12),
    decode (opA 0x1000 nnn) = .ok (.jp nnn) ∧ decode (opA 0xB000 nnn) = .ok (.jpV0 nnn) ∧
    (∃ t, exec (.jp nnn) s = .next t ∧ t = { s with pc := t.pc } ∧ t.pc.toNat = nnn.toNat) ∧
    (∃ t, exec (.jpV0 nnn) s = .next t ∧ t = { s with pc := t.pc } ∧
      t.pc.toNat = nnn.toNat + (s.reg 0).toNat)

/-- R102: 2NNN with a free slot stacks its own address at `SP`, high byte first, moves `SP` down by 2 and jumps.
That the stacked value is the call's own address is decision D11 of the spec. For an `SP` outside the stack region, which
no run reaches (R28), this is the model's own choice (log 7). -/
def Obligations.CallPushesItsOwnAddress : Prop :=
  ∀ (s : State) (nnn : BitVec 12), s.cfg.stackLo ≤ s.sp.toNat → s.sp.toNat + 1 < 4096 →
    ∃ t, exec (.call nnn) s = .next t ∧ t = { s with mem := t.mem, sp := s.sp - 2, pc := t.pc } ∧
      t.pc.toNat = nnn.toNat ∧
      ∀ a, t.byte a = if a = s.sp.toNat then BitVec.ofNat 8 (s.pc.toNat / 256)
        else if a = s.sp.toNat + 1 then BitVec.ofNat 8 (s.pc.toNat % 256) else s.byte a

/-- R183: 2NNN raises StackOverflow when the stack already holds `CAP` return addresses, 16 with the default bounds;
nothing is written and `PC` stays (decision D13 of the spec; the default bounds are decision D1). -/
def Obligations.CallWithFullStackOverflows : Prop :=
  defaultConfig.cap = 16 ∧
  ∀ (s : State) (nnn : BitVec 12), s.Inv → s.sp.toNat + 2 + 2 * s.cfg.cap = s.cfg.stackHi →
    exec (.call nnn) s = .next { s with run := .faulted .stackOverflow }

/-- R100: 00EE with a stacked address moves `SP` up by 2, reads the two bytes there and resumes 2 after the value;
memory is unchanged. Move-then-read and the `+ 2` are decisions D10 and D11 of the spec. For an `SP` outside the stack
region, which no run reaches (R28), this is the model's own choice (log 7). -/
def Obligations.ReturnResumesAfterStackedAddress : Prop :=
  ∀ s : State, s.sp.toNat + 2 ≠ s.cfg.stackHi → s.sp.toNat + 3 < 4096 → 2 ≤ s.cfg.stackHi →
    exec .ret s = .next { s with
      sp := s.sp + 2, pc := wordOf (s.byte (s.sp.toNat + 2)) (s.byte (s.sp.toNat + 3)) + 2 }

/-- R184: 00EE raises StackUnderflow when no return address is stacked; nothing else changes (decision D13 of the
spec). -/
def Obligations.ReturnOnEmptyStackUnderflows : Prop :=
  ∀ s : State, s.sp.toNat + 2 = s.cfg.stackHi →
    exec .ret s = .next { s with run := .faulted .stackUnderflow }

/-- R100, R102, S10: a call and the return that matches it restore `PC` to the instruction after the call and `SP` to
what it was, whatever ran between them, as long as it left `SP` as the call did and did not overwrite the two stacked
bytes. -/
def Obligations.CallThenReturnResumesAfterCall : Prop :=
  ∀ (s t u : State) (nnn : BitVec 12), s.Inv → s.cfg.stackLo ≤ s.sp.toNat → exec (.call nnn) s = .next t →
    u.cfg = s.cfg → u.sp = t.sp → u.byte s.sp.toNat = t.byte s.sp.toNat →
    u.byte (s.sp.toNat + 1) = t.byte (s.sp.toNat + 1) →
    exec .ret u = .next { u with sp := s.sp, pc := s.pc + 2 }

/-- R110 to R113: the four skips on registers: `PC` moves by 4 when the condition holds and by 2 when it does not, and
nothing else changes. With the words the rules give them. -/
def Obligations.RegisterSkips : Prop :=
  ∀ (s : State) (x y : RegNum) (nn : Byte),
    decode (opXI 0x3000 x nn) = .ok (.seImm x nn) ∧ decode (opXI 0x4000 x nn) = .ok (.sneImm x nn) ∧
    decode (opXY 0x5000 x y) = .ok (.seReg x y) ∧ decode (opXY 0x9000 x y) = .ok (.sneReg x y) ∧
    exec (.seImm x nn) s = .next { s with pc := s.pc + (if s.reg x = nn then 4 else 2) } ∧
    exec (.sneImm x nn) s = .next { s with pc := s.pc + (if s.reg x ≠ nn then 4 else 2) } ∧
    exec (.seReg x y) s = .next { s with pc := s.pc + (if s.reg x = s.reg y then 4 else 2) } ∧
    exec (.sneReg x y) s = .next { s with pc := s.pc + (if s.reg x ≠ s.reg y then 4 else 2) }

/-- R170, R171: the two skips on the keypad; a code of 16 or more counts as not held (decision D18 of the spec). -/
def Obligations.KeySkips : Prop :=
  ∀ (s : State) (x : RegNum),
    exec (.skp x) s = .next { s with pc := s.pc +
      (if (s.reg x).toNat ≤ 15 ∧ s.keys.getLsbD (s.reg x).toNat = true then 4 else 2) } ∧
    exec (.sknp x) s = .next { s with pc := s.pc +
      (if (s.reg x).toNat ≤ 15 ∧ s.keys.getLsbD (s.reg x).toNat = true then 2 else 4) }

/-! ## Registers (spec/42_alu.md) -/

/-- R120, R121: 6XNN loads NN and 7XNN adds it mod 256; no other register changes, `VF` included. With the words the
rules give them. -/
def Obligations.ImmediateLoadAndAdd : Prop :=
  ∀ (s : State) (x : RegNum) (nn : Byte),
    decode (opXI 0x6000 x nn) = .ok (.ldImm x nn) ∧ decode (opXI 0x7000 x nn) = .ok (.addImm x nn) ∧
    (∃ t, exec (.ldImm x nn) s = .next t ∧ t = { s with v := t.v, pc := s.pc + 2 } ∧
      ∀ k, t.reg k = if k = x then nn else s.reg k) ∧
    (∃ t, exec (.addImm x nn) s = .next t ∧ t = { s with v := t.v, pc := s.pc + 2 } ∧
      (t.reg x).toNat = ((s.reg x).toNat + nn.toNat) % 256 ∧ ∀ k, k ≠ x → t.reg k = s.reg k)

/-- R122 to R125: copy, OR, AND, XOR write `V[X]` and nothing else; `VF` is unchanged unless `X = 15`. With the words
the rules give them. -/
def Obligations.CopyAndLogicLeaveTheFlag : Prop :=
  ∀ (s : State) (x y : RegNum),
    decode (opXY 0x8000 x y) = .ok (.ldReg x y) ∧ decode (opXY 0x8001 x y) = .ok (.orReg x y) ∧
    decode (opXY 0x8002 x y) = .ok (.andReg x y) ∧ decode (opXY 0x8003 x y) = .ok (.xorReg x y) ∧
    (∃ t, exec (.ldReg x y) s = .next t ∧ t = { s with v := t.v, pc := s.pc + 2 } ∧
      ∀ k, t.reg k = if k = x then s.reg y else s.reg k) ∧
    (∃ t, exec (.orReg x y) s = .next t ∧ t = { s with v := t.v, pc := s.pc + 2 } ∧
      ∀ k, t.reg k = if k = x then s.reg x ||| s.reg y else s.reg k) ∧
    (∃ t, exec (.andReg x y) s = .next t ∧ t = { s with v := t.v, pc := s.pc + 2 } ∧
      ∀ k, t.reg k = if k = x then s.reg x &&& s.reg y else s.reg k) ∧
    (∃ t, exec (.xorReg x y) s = .next t ∧ t = { s with v := t.v, pc := s.pc + 2 } ∧
      ∀ k, t.reg k = if k = x then s.reg x ^^^ s.reg y else s.reg k)

/-- R126: 8XY4 puts the sum mod 256 into `V[X]` and the carry into `VF`. That the sum stays when `X = 15` is decision
D8 of the spec (R24). -/
def Obligations.AddSetsCarry : Prop :=
  ∀ (s : State) (x y : RegNum), ∃ t, exec (.addReg x y) s = .next t ∧ t = { s with v := t.v, pc := s.pc + 2 } ∧
    (t.reg x).toNat = ((s.reg x).toNat + (s.reg y).toNat) % 256 ∧
    (x ≠ flagReg → t.reg flagReg = if (s.reg x).toNat + (s.reg y).toNat > 255 then 1 else 0) ∧
    ∀ k, k ≠ x → k ≠ flagReg → t.reg k = s.reg k

/-- R127, R129: 8XY5 and 8XY7 put the difference mod 256 into `V[X]` and NOT borrow into `VF`: with the borrow,
`V[X]` is 256 too large. That the difference stays when `X = 15` is decision D8 of the spec (R24). -/
def Obligations.SubtractionsSetNoBorrow : Prop :=
  ∀ (s : State) (x y : RegNum),
    (∃ t, exec (.subReg x y) s = .next t ∧ t = { s with v := t.v, pc := s.pc + 2 } ∧
      (t.reg x).toNat + (s.reg y).toNat =
        (s.reg x).toNat + (if (s.reg x).toNat ≥ (s.reg y).toNat then 0 else 256) ∧
      (x ≠ flagReg → t.reg flagReg = if (s.reg x).toNat ≥ (s.reg y).toNat then 1 else 0) ∧
      ∀ k, k ≠ x → k ≠ flagReg → t.reg k = s.reg k) ∧
    (∃ t, exec (.subnReg x y) s = .next t ∧ t = { s with v := t.v, pc := s.pc + 2 } ∧
      (t.reg x).toNat + (s.reg x).toNat =
        (s.reg y).toNat + (if (s.reg y).toNat ≥ (s.reg x).toNat then 0 else 256) ∧
      (x ≠ flagReg → t.reg flagReg = if (s.reg y).toNat ≥ (s.reg x).toNat then 1 else 0) ∧
      ∀ k, k ≠ x → k ≠ flagReg → t.reg k = s.reg k)

/-- R128, R130, R88: the shifts move `V[X]` by one place and put the bit that falls out into `VF`; the `Y` field
changes nothing. That the result stays when `X = 15` is decision D8 of the spec (R24). -/
def Obligations.ShiftsMoveOneBitIntoTheFlag : Prop :=
  ∀ (s : State) (x y z : RegNum),
    (∃ t, exec (.shr x y) s = .next t ∧ t = { s with v := t.v, pc := s.pc + 2 } ∧
      (t.reg x).toNat = (s.reg x).toNat / 2 ∧
      (x ≠ flagReg → (t.reg flagReg).toNat = (s.reg x).toNat % 2) ∧
      ∀ k, k ≠ x → k ≠ flagReg → t.reg k = s.reg k) ∧
    (∃ t, exec (.shl x y) s = .next t ∧ t = { s with v := t.v, pc := s.pc + 2 } ∧
      (t.reg x).toNat = (s.reg x).toNat * 2 % 256 ∧
      (x ≠ flagReg → (t.reg flagReg).toNat = (s.reg x).toNat / 128) ∧
      ∀ k, k ≠ x → k ≠ flagReg → t.reg k = s.reg k) ∧
    exec (.shr x y) s = exec (.shr x z) s ∧ exec (.shl x y) s = exec (.shl x z) s

/-- R132: CXNN puts its draw AND NN into `V[X]`, so no bit outside NN, sets no flag and uses the draw up. The draw is
a free value, so this holds for every draw; the counter that selects it is the model's own (log 2). -/
def Obligations.RandomByteIsMasked : Prop :=
  ∀ (s : State) (x : RegNum) (nn : Byte), ∃ t, exec (.rnd x nn) s = .next t ∧
    t = { s with v := t.v, pc := s.pc + 2, draws := s.draws + 1 } ∧ t.reg x = Config.draw s.draws &&& nn ∧
    t.reg x &&& ~~~nn = 0 ∧ (t.reg x).toNat ≤ nn.toNat ∧ ∀ k, k ≠ x → t.reg k = s.reg k

/-! ## Index register and memory transfer (spec/43_index_memory.md) -/

/-- R140, R141: ANNN loads NNN, FX1E adds `V[X]` mod 65536; no flag is written and nothing faults. With the words the
rules give them. -/
def Obligations.IndexLoadAndAdd : Prop :=
  ∀ (s : State) (nnn : BitVec 12) (x : RegNum),
    decode (opA 0xA000 nnn) = .ok (.ldI nnn) ∧ decode (opXS 0xF01E x) = .ok (.addI x) ∧
    (∃ t, exec (.ldI nnn) s = .next t ∧ t = { s with i := t.i, pc := s.pc + 2 } ∧ t.i.toNat = nnn.toNat) ∧
    (∃ t, exec (.addI x) s = .next t ∧ t = { s with i := t.i, pc := s.pc + 2 } ∧
      t.i.toNat = (s.i.toNat + (s.reg x).toNat) % 65536)

/-- R142: FX29 puts `V[X] * 5` into `I`, the whole register with no mask (decision D27 of the spec). -/
def Obligations.GlyphAddressIsFiveTimesTheDigit : Prop :=
  ∀ (s : State) (x : RegNum), ∃ t, exec (.ldF x) s = .next t ∧ t = { s with i := t.i, pc := s.pc + 2 } ∧
    t.i.toNat = (s.reg x).toNat * 5

/-- R143: FX33 stores three digits `h`, `t`, `u` with `V[X] = 100 h + 10 t + u` at `I`, `I + 1`, `I + 2`, and changes
no other byte and no register. -/
def Obligations.BcdStoresThreeDigits : Prop :=
  ∀ (s : State) (x : RegNum), s.i.toNat + 2 < 4096 →
    ∃ t, exec (.ldB x) s = .next t ∧ t = { s with mem := t.mem, pc := s.pc + 2 } ∧
      (∃ h d u : Nat, h ≤ 2 ∧ d ≤ 9 ∧ u ≤ 9 ∧ (s.reg x).toNat = 100 * h + 10 * d + u ∧
        t.byte s.i.toNat = BitVec.ofNat 8 h ∧ t.byte (s.i.toNat + 1) = BitVec.ofNat 8 d ∧
        t.byte (s.i.toNat + 2) = BitVec.ofNat 8 u) ∧
      ∀ a, a < s.i.toNat ∨ s.i.toNat + 2 < a → t.byte a = s.byte a

/-- R144: FX55 stores `V0` to `VX` at `I` and up and adds `X + 1` to `I`; every other byte and every register is
unchanged. -/
def Obligations.StoreRegistersAtIndex : Prop :=
  ∀ (s : State) (x : RegNum), s.i.toNat + x.val < 4096 →
    ∃ t, exec (.storeRegs x) s = .next t ∧ t = { s with mem := t.mem, i := t.i, pc := s.pc + 2 } ∧
      t.i.toNat = s.i.toNat + x.val + 1 ∧
      (∀ k : RegNum, k ≤ x → t.byte (s.i.toNat + k.val) = s.reg k) ∧
      ∀ a, a < s.i.toNat ∨ s.i.toNat + x.val < a → t.byte a = s.byte a

/-- R145: FX65 loads `V0` to `VX` from `I` and up and adds `X + 1` to `I`; the registers above `VX` and all of memory
are unchanged. -/
def Obligations.LoadRegistersFromIndex : Prop :=
  ∀ (s : State) (x : RegNum), s.i.toNat + x.val < 4096 →
    ∃ t, exec (.loadRegs x) s = .next t ∧ t = { s with v := t.v, i := t.i, pc := s.pc + 2 } ∧
      t.i.toNat = s.i.toNat + x.val + 1 ∧
      (∀ k : RegNum, t.reg k = if k ≤ x then s.byte (s.i.toNat + k.val) else s.reg k) ∧
      ∀ a, t.byte a = s.byte a

/-- R143 to R145, R182, R56: FX33, FX55 and FX65 raise AddressOverrun with the first address that is 4096 or more, not
wrapped, and have no other effect (decision D13 of the spec). -/
def Obligations.IndexOverrunFaultsAtFirstAddress : Prop :=
  ∀ (s : State) (x : RegNum),
    (4096 ≤ s.i.toNat + 2 →
      exec (.ldB x) s = .next { s with run := .faulted (.addressOverrun (max s.i.toNat 4096)) }) ∧
    (4096 ≤ s.i.toNat + x.val →
      exec (.storeRegs x) s = .next { s with run := .faulted (.addressOverrun (max s.i.toNat 4096)) } ∧
      exec (.loadRegs x) s = .next { s with run := .faulted (.addressOverrun (max s.i.toNat 4096)) })

/-- R144, R145, S7: FX55 and then FX65 at the same `I` and the same `X`, whatever ran between them, gives back the
stored registers, as long as the stored bytes were left alone. -/
def Obligations.StoreThenLoadRestoresRegisters : Prop :=
  ∀ (s t u : State) (x : RegNum), s.i.toNat + x.val < 4096 → exec (.storeRegs x) s = .next t → u.i = s.i →
    (∀ k : RegNum, k ≤ x → u.byte (s.i.toNat + k.val) = t.byte (s.i.toNat + k.val)) →
    ∃ w, exec (.loadRegs x) u = .next w ∧ w.i = t.i ∧ ∀ k, w.reg k = if k ≤ x then s.reg k else u.reg k

/-! ## Display (spec/44_display.md) -/

/-- R153: 00E0 makes every framebuffer byte 0 and changes nothing else. -/
def Obligations.ClearScreenZeroesTheFramebuffer : Prop :=
  decode 0x00E0 = .ok .cls ∧
  ∀ s : State, ∃ t, exec .cls s = .next t ∧ t = { s with mem := t.mem, pc := s.pc + 2 } ∧
    ∀ a, t.byte a = if 3840 ≤ a ∧ a < 4096 then 0 else s.byte a

/-- R154, R150, R151: DXYN, when every address it accesses is in memory, XORs every pixel with the sprite's bit over
it, sets `VF` to 1 exactly when a lit pixel lay under a 1-bit and else to 0, and changes no byte outside the
framebuffer and no other register. The bit order is decision D16 of the spec (log 11). That the sprite is read before
anything is drawn, which rows access a second byte, and that `N = 0` clears `VF` are decision D17 (log 12). -/
def Obligations.DrawXorsSpritePixels : Prop :=
  ∀ (s : State) (x y : RegNum) (n : Fin 16), (∀ a ∈ drawAccesses s x y n, a < 4096) →
    ∃ t, exec (.drw x y n) s = .next t ∧ t = { s with mem := t.mem, v := t.v, pc := s.pc + 2 } ∧
      (∀ p, p < 2048 → t.pixel p = (s.pixel p ^^ spriteCovers s x y n p)) ∧
      (∀ a, a < 3840 ∨ 4096 ≤ a → t.byte a = s.byte a) ∧
      (t.reg flagReg = 0 ∨ t.reg flagReg = 1) ∧
      (t.reg flagReg = 1 ↔ ∃ p, p < 2048 ∧ spriteCovers s x y n p = true ∧ s.pixel p = true) ∧
      ∀ k, k ≠ flagReg → t.reg k = s.reg k

/-- R154, R182: DXYN raises AddressOverrun with the first address that is 4096 or more, in the order sprite bytes and
then framebuffer bytes row by row, and has no other effect. The second byte of an unaligned row counts even when no bit
spills into it (decision D17 of the spec). -/
def Obligations.DrawFaultsAtFirstOverrun : Prop :=
  ∀ (s : State) (x y : RegNum) (n : Fin 16) (a : Nat),
    (drawAccesses s x y n).find? (fun b => 4096 ≤ b) = some a →
    exec (.drw x y n) s = .next { s with run := .faulted (.addressOverrun a) }

/-- R154: with its sprite in memory and at least one row, DXYN is fault-free exactly when its last row's bytes are in
memory; with a column of at most 56, exactly when the sprite ends at the bottom of the display. The bound 2039 for an
unaligned column counts a second byte even when no bit spills into it, which is decision D17 of the spec (log 12). -/
def Obligations.DrawCompletesAboveTheBottomEdge : Prop :=
  ∀ (s : State) (x y : RegNum) (n : Fin 16), s.isFaulted = false → 1 ≤ n.val → s.i.toNat + n.val ≤ 4096 →
    ∃ t, exec (.drw x y n) s = .next t ∧
      (t.isFaulted = false ↔ (s.reg x).toNat + 64 * ((s.reg y).toNat + (n.val - 1)) ≤
        if (s.reg x).toNat % 8 = 0 then 2040 else 2039) ∧
      ((s.reg x).toNat ≤ 56 → (t.isFaulted = false ↔ (s.reg y).toNat + n.val ≤ 32))

/-- R154, S9, C6: drawing the same sprite a second time at the same place restores the framebuffer, and sets `VF` exactly
when some 1-bit of it fell on a pixel that was off before the first draw. -/
def Obligations.DrawTwiceRestoresTheFramebuffer : Prop :=
  ∀ (s t u : State) (x y x' y' : RegNum) (n : Fin 16), (∀ a ∈ drawAccesses s x y n, a < 4096) →
    exec (.drw x y n) s = .next t → (∀ a, u.byte a = t.byte a) → u.i = s.i → u.reg x' = s.reg x →
    u.reg y' = s.reg y → (∀ r, r < n.val → t.byte (s.i.toNat + r) = s.byte (s.i.toNat + r)) →
    ∃ w, exec (.drw x' y' n) u = .next w ∧ (∀ a, w.byte a = s.byte a) ∧
      (w.reg flagReg = 0 ∨ w.reg flagReg = 1) ∧
      (w.reg flagReg = 1 ↔ ∃ p, p < 2048 ∧ spriteCovers s x y n p = true ∧ s.pixel p = false)

/-- R150, R156: `snapshot` is 32 rows of 64 pixels, column `c` of row `r` being bit `7 - (c mod 8)` of
`Mem[3840 + 8r + c div 8]`, and the encoder gives the framebuffer bytes back. The bit order is decision D16 of the
spec. -/
def Obligations.SnapshotDecodesTheFramebuffer : Prop :=
  ∀ s : State, s.snapshot.length = 32 ∧
    (∀ r, r < 32 → (s.snapshot.getD r []).length = 64) ∧
    (∀ r c, r < 32 → c < 64 → (s.snapshot.getD r []).getD c false =
      (s.byte (3840 + 8 * r + c / 8)).getLsbD (7 - c % 8)) ∧
    ∀ k, k < 256 → packPixels ((List.range 8).map (fun j => s.pixel (8 * k + j))) = s.byte (3840 + k)

/-! ## Timers and input (spec/45_timers.md, spec/46_input.md) -/

/-- R160 to R162: FX07 reads `DT`, FX15 and FX18 set `DT` and `ST`; `tone` follows `ST` at once; nothing else
changes. With the words the rules give them. -/
def Obligations.TimerAccess : Prop :=
  ∀ (s : State) (x : RegNum),
    decode (opXS 0xF007 x) = .ok (.ldVxDt x) ∧ decode (opXS 0xF015 x) = .ok (.ldDtVx x) ∧
    decode (opXS 0xF018 x) = .ok (.ldStVx x) ∧
    (∃ t, exec (.ldVxDt x) s = .next t ∧ t = { s with v := t.v, pc := s.pc + 2 } ∧
      ∀ k, t.reg k = if k = x then s.dt else s.reg k) ∧
    exec (.ldDtVx x) s = .next { s with dt := s.reg x, pc := s.pc + 2 } ∧
    (∃ t, exec (.ldStVx x) s = .next t ∧ t = { s with st := s.reg x, pc := s.pc + 2 } ∧
      (t.tone = true ↔ s.reg x ≠ 0))

/-- R172: FX0A suspends the engine and records its register, which it does not write; `PC` is advanced already at this
step (decision D19 of the spec). -/
def Obligations.KeyWaitSuspendsTheEngine : Prop :=
  ∀ (s : State) (x : RegNum),
    exec (.ldVxK x) s = .next { s with run := .waitingForKey x, pc := s.pc + 2 }
end

