-- ==== Sys2Proof/Laws/Memory.lean ====
section
/-! SUPPORT. The memory array: reading after writing, and the canonical form. -/

namespace Sys2Proof.Machine

theorem Memory.lookup_insert (m : Memory) (a c : Nat) (b : Byte) :
    Memory.lookup (Memory.insert m a b) c = if c = a then some b else Memory.lookup m c := by
  induction m with
  | nil =>
    by_cases h : c = a
    · simp [Memory.insert, Memory.lookup, h]
    · simp [Memory.insert, Memory.lookup, h, Ne.symm h]
  | cons p m ih =>
    obtain ⟨k, d⟩ := p
    simp only [Memory.insert]
    split
    · by_cases h : c = a
      · simp [Memory.lookup, h]
      · simp [Memory.lookup, h, Ne.symm h]
    · split
      · subst_vars
        by_cases h : c = k
        · simp [Memory.lookup, h]
        · simp [Memory.lookup, h, Ne.symm h]
      · simp only [Memory.lookup, ih]
        by_cases hk : k = c
        · subst hk; simp; omega
        · simp [hk]

theorem Memory.lookup_erase (m : Memory) (a c : Nat) :
    Memory.lookup (Memory.erase m a) c = if c = a then none else Memory.lookup m c := by
  induction m with
  | nil => simp [Memory.erase, Memory.lookup]
  | cons p m ih =>
    obtain ⟨k, d⟩ := p
    simp only [Memory.erase]
    by_cases hk : k = a
    · subst hk
      simp only [if_true, ih, Memory.lookup]
      by_cases h : c = k
      · simp [h]
      · simp [h, Ne.symm h]
    · simp only [hk, if_false, Memory.lookup, ih]
      by_cases hc : k = c
      · subst hc; simp [hk]
      · simp [hc]

/-- A read after a write: the written cell gives the byte written, every other cell what it gave. -/
theorem Memory.read_write (font : Font) (m : Memory) (a c : Nat) (b : Byte) :
    Memory.read font (Memory.write font m a b) c = if c = a then b else Memory.read font m c := by
  unfold Memory.write Memory.read
  split
  · rename_i h
    rw [Memory.lookup_erase]
    by_cases hc : c = a <;> simp [hc, h]
  · rw [Memory.lookup_insert]
    by_cases hc : c = a <;> simp [hc]

/-- A read after a run of ascending writes. -/
theorem Memory.read_writeList (font : Font) (bs : List Byte) : ∀ (m : Memory) (a c : Nat),
    Memory.read font (Memory.writeList font m a bs) c =
      if a ≤ c ∧ c < a + bs.length then bs.getD (c - a) 0 else Memory.read font m c := by
  induction bs with
  | nil => intro m a c; simp only [Memory.writeList, List.length_nil]; rw [if_neg (by omega)]
  | cons b bs ih =>
    intro m a c
    rw [Memory.writeList, ih, Memory.read_write, List.length_cons]
    by_cases hc : c = a
    · subst hc
      rw [if_neg (by omega), if_pos rfl, if_pos (by omega)]; simp
    · by_cases h : a ≤ c ∧ c < a + (bs.length + 1)
      · rw [if_pos (by omega), if_pos h]
        obtain ⟨d, rfl⟩ : ∃ d, c = a + 1 + d := ⟨c - (a + 1), by omega⟩
        rw [show a + 1 + d - (a + 1) = d by omega, show a + 1 + d - a = d + 1 by omega]; simp
      · rw [if_neg (by omega), if_neg hc, if_neg h]

/-- A read after a run of equal writes. -/
theorem Memory.read_fill (font : Font) (b : Byte) (n : Nat) : ∀ (m : Memory) (a c : Nat),
    Memory.read font (Memory.fill font m a b n) c =
      if a ≤ c ∧ c < a + n then b else Memory.read font m c := by
  induction n with
  | zero => intro m a c; rw [Memory.fill, if_neg (by omega)]
  | succ n ih =>
    intro m a c
    rw [Memory.fill, ih, Memory.read_write]
    by_cases h : a + 1 ≤ c ∧ c < a + 1 + n
    · rw [if_pos h, if_pos (by omega)]
    · by_cases hc : c = a
      · rw [if_neg h, if_pos hc, if_pos (by omega)]
      · rw [if_neg h, if_neg hc, if_neg (by omega)]

theorem Memory.mem_insert {m : Memory} {a : Nat} {b : Byte} {c : Host.Cell}
    (h : c ∈ Memory.insert m a b) : c = (a, b) ∨ c ∈ m := by
  induction m with
  | nil => simpa [Memory.insert] using h
  | cons p m ih =>
    obtain ⟨k, d⟩ := p
    simp only [Memory.insert] at h
    split at h
    · simpa using h
    · split at h
      · simp only [List.mem_cons] at h ⊢; tauto
      · simp only [List.mem_cons] at h ⊢
        rcases h with h | h
        · exact .inr (.inl h)
        · rcases ih h with h | h
          · exact .inl h
          · exact .inr (.inr h)

theorem Memory.mem_erase {m : Memory} {a : Nat} {c : Host.Cell} (h : c ∈ Memory.erase m a) : c ∈ m := by
  induction m with
  | nil => simp [Memory.erase] at h
  | cons p m ih =>
    simp only [Memory.erase] at h
    split at h
    · exact List.mem_cons_of_mem _ (ih h)
    · rcases List.mem_cons.1 h with h | h
      · exact h ▸ List.mem_cons_self
      · exact List.mem_cons_of_mem _ (ih h)

theorem Memory.pairwise_insert {m : Memory} (h : m.Pairwise (fun c d => c.1 < d.1)) (a : Nat) (b : Byte) :
    (Memory.insert m a b).Pairwise (fun c d => c.1 < d.1) := by
  induction m with
  | nil => simp [Memory.insert]
  | cons p m ih =>
    obtain ⟨k, d⟩ := p
    have hh := List.pairwise_cons.1 h
    simp only [Memory.insert]
    split
    · refine List.pairwise_cons.2 ⟨fun c hc => ?_, h⟩
      rcases List.mem_cons.1 hc with rfl | hc
      · assumption
      · have := hh.1 c hc; simp only at this ⊢; omega
    · split
      · subst_vars; exact List.pairwise_cons.2 hh
      · refine List.pairwise_cons.2 ⟨fun c hc => ?_, ih hh.2⟩
        rcases Memory.mem_insert hc with rfl | hc
        · simp only; omega
        · exact hh.1 c hc

theorem Memory.pairwise_erase {m : Memory} (h : m.Pairwise (fun c d => c.1 < d.1)) (a : Nat) :
    (Memory.erase m a).Pairwise (fun c d => c.1 < d.1) := by
  induction m with
  | nil => simp [Memory.erase]
  | cons p m ih =>
    have hh := List.pairwise_cons.1 h
    simp only [Memory.erase]
    split
    · exact ih hh.2
    · exact List.pairwise_cons.2 ⟨fun c hc => hh.1 c (Memory.mem_erase hc), ih hh.2⟩

/-- A write inside memory keeps the canonical form. -/
theorem Memory.wf_write {font : Font} {m : Memory} {a : Nat} (h : Memory.wf font m)
    (ha : a < Config.memSize) (b : Byte) : Memory.wf font (Memory.write font m a b) := by
  unfold Memory.write
  split
  · exact ⟨Memory.pairwise_erase h.1 a, fun c hc => h.2 c (Memory.mem_erase hc)⟩
  · refine ⟨Memory.pairwise_insert h.1 a b, fun c hc => ?_⟩
    rcases Memory.mem_insert hc with rfl | hc
    · exact ⟨ha, by assumption⟩
    · exact h.2 c hc

/-- A run of writes inside memory keeps the canonical form. -/
theorem Memory.wf_writeList {font : Font} (bs : List Byte) : ∀ {m : Memory} {a : Nat}, Memory.wf font m →
    a + bs.length ≤ Config.memSize → Memory.wf font (Memory.writeList font m a bs) := by
  induction bs with
  | nil => intro m a h _; exact h
  | cons b bs ih =>
    intro m a h ha
    rw [List.length_cons] at ha
    exact ih (Memory.wf_write h (by omega) b) (by omega)

/-- A run of equal writes inside memory keeps the canonical form. -/
theorem Memory.wf_fill {font : Font} (b : Byte) (n : Nat) : ∀ {m : Memory} {a : Nat}, Memory.wf font m →
    a + n ≤ Config.memSize → Memory.wf font (Memory.fill font m a b n) := by
  induction n with
  | zero => intro m a h _; exact h
  | succ n ih => intro m a h ha; exact ih (Memory.wf_write h (by omega) b) (by omega)

theorem Memory.wf_nil (font : Font) : Memory.wf font [] := by simp [Memory.wf]

theorem Memory.read_nil (font : Font) (a : Nat) : Memory.read font [] a = Memory.unlisted font a := by
  simp [Memory.read, Memory.lookup]

theorem Memory.lookup_eq_none_of_lt {m : Memory} {a : Nat} (h : ∀ c ∈ m, a < c.1) :
    Memory.lookup m a = none := by
  induction m with
  | nil => rfl
  | cons p m ih =>
    obtain ⟨k, d⟩ := p
    have hk := h (k, d) List.mem_cons_self
    simp only at hk
    rw [Memory.lookup, if_neg (by omega)]
    exact ih fun c hc => h c (List.mem_cons_of_mem _ hc)

theorem Memory.lookup_eq_some {m : Memory} {a : Nat} {b : Byte} (h : Memory.lookup m a = some b) :
    (a, b) ∈ m := by
  induction m with
  | nil => simp [Memory.lookup] at h
  | cons p m ih =>
    obtain ⟨k, d⟩ := p
    rw [Memory.lookup] at h
    split at h
    · subst_vars; cases h; exact List.mem_cons_self
    · exact List.mem_cons_of_mem _ (ih h)

/-- In a canonical memory a cell is listed exactly when it does not read as unlisted. -/
theorem Memory.lookup_of_read {font : Font} {m : Memory} (h : Memory.wf font m) (a : Nat) :
    Memory.lookup m a =
      if Memory.read font m a = Memory.unlisted font a then none else some (Memory.read font m a) := by
  unfold Memory.read
  cases hl : Memory.lookup m a with
  | none => simp
  | some b =>
    have := (h.2 _ (Memory.lookup_eq_some hl)).2
    simp only at this
    simp [this]

theorem Memory.eq_of_lookup {m n : Memory} (hm : m.Pairwise (fun c d => c.1 < d.1))
    (hn : n.Pairwise (fun c d => c.1 < d.1)) (h : ∀ a, Memory.lookup m a = Memory.lookup n a) : m = n := by
  induction m generalizing n with
  | nil =>
    cases n with
    | nil => rfl
    | cons q n => have := h q.1; simp [Memory.lookup] at this
  | cons p m ih =>
    cases n with
    | nil => have := h p.1; simp [Memory.lookup] at this
    | cons q n =>
      obtain ⟨k, d⟩ := p
      obtain ⟨l, e⟩ := q
      have hm' := List.pairwise_cons.1 hm
      have hn' := List.pairwise_cons.1 hn
      have hkl : k = l := by
        rcases Nat.lt_trichotomy k l with hlt | heq | hgt
        · have h1 := h k
          rw [Memory.lookup_eq_none_of_lt (m := (l, e) :: n) (a := k) ?_] at h1
          · simp [Memory.lookup] at h1
          · intro c hc
            rcases List.mem_cons.1 hc with rfl | hc
            · exact hlt
            · have := hn'.1 c hc; simp only at this; omega
        · exact heq
        · have h1 := h l
          rw [Memory.lookup_eq_none_of_lt (m := (k, d) :: m) (a := l) ?_] at h1
          · simp [Memory.lookup] at h1
          · intro c hc
            rcases List.mem_cons.1 hc with rfl | hc
            · exact hgt
            · have := hm'.1 c hc; simp only at this; omega
      subst hkl
      have hde : d = e := by have h1 := h k; simpa [Memory.lookup] using h1
      subst hde
      rw [ih hm'.2 hn'.2 fun a => ?_]
      by_cases ha : k = a
      · subst ha
        rw [Memory.lookup_eq_none_of_lt fun c hc => hm'.1 c hc,
          Memory.lookup_eq_none_of_lt fun c hc => hn'.1 c hc]
      · have h1 := h a; simpa [Memory.lookup, ha] using h1

/-- Canonical memories with the same contents are the same list. -/
theorem Memory.eq_of_read {font : Font} {m n : Memory} (hm : Memory.wf font m) (hn : Memory.wf font n)
    (h : ∀ a, Memory.read font m a = Memory.read font n a) : m = n :=
  Memory.eq_of_lookup hm.1 hn.1 fun a => by
    rw [Memory.lookup_of_read hm, Memory.lookup_of_read hn, h]

end Sys2Proof.Machine
end

