-- ==== Sys2Proof/Laws/State.lean ====
section
/-! SUPPORT. One lemma for each field of State under each named update, and the reading of a register and of a
byte after each update, so that no later proof unfolds a record update. -/

namespace Sys2Proof.Machine

variable (s : State)

@[simp] theorem State.mem_setReg (k : RegNum) (b : Byte) : (s.setReg k b).mem = s.mem := rfl
@[simp] theorem State.v_setReg (k : RegNum) (b : Byte) : (s.setReg k b).v = s.v.set k b := rfl
@[simp] theorem State.i_setReg (k : RegNum) (b : Byte) : (s.setReg k b).i = s.i := rfl
@[simp] theorem State.pc_setReg (k : RegNum) (b : Byte) : (s.setReg k b).pc = s.pc := rfl
@[simp] theorem State.sp_setReg (k : RegNum) (b : Byte) : (s.setReg k b).sp = s.sp := rfl
@[simp] theorem State.dt_setReg (k : RegNum) (b : Byte) : (s.setReg k b).dt = s.dt := rfl
@[simp] theorem State.st_setReg (k : RegNum) (b : Byte) : (s.setReg k b).st = s.st := rfl
@[simp] theorem State.keys_setReg (k : RegNum) (b : Byte) : (s.setReg k b).keys = s.keys := rfl
@[simp] theorem State.run_setReg (k : RegNum) (b : Byte) : (s.setReg k b).run = s.run := rfl
@[simp] theorem State.cfg_setReg (k : RegNum) (b : Byte) : (s.setReg k b).cfg = s.cfg := rfl
@[simp] theorem State.draws_setReg (k : RegNum) (b : Byte) : (s.setReg k b).draws = s.draws := rfl
@[simp] theorem State.schedule_setReg (k : RegNum) (b : Byte) : (s.setReg k b).schedule = s.schedule := rfl

@[simp] theorem State.mem_setFlagThenReg (x : RegNum) (f r : Byte) : (s.setFlagThenReg x f r).mem = s.mem := rfl
@[simp] theorem State.i_setFlagThenReg (x : RegNum) (f r : Byte) : (s.setFlagThenReg x f r).i = s.i := rfl
@[simp] theorem State.pc_setFlagThenReg (x : RegNum) (f r : Byte) : (s.setFlagThenReg x f r).pc = s.pc := rfl
@[simp] theorem State.sp_setFlagThenReg (x : RegNum) (f r : Byte) : (s.setFlagThenReg x f r).sp = s.sp := rfl
@[simp] theorem State.dt_setFlagThenReg (x : RegNum) (f r : Byte) : (s.setFlagThenReg x f r).dt = s.dt := rfl
@[simp] theorem State.st_setFlagThenReg (x : RegNum) (f r : Byte) : (s.setFlagThenReg x f r).st = s.st := rfl
@[simp] theorem State.keys_setFlagThenReg (x : RegNum) (f r : Byte) : (s.setFlagThenReg x f r).keys = s.keys := rfl
@[simp] theorem State.run_setFlagThenReg (x : RegNum) (f r : Byte) : (s.setFlagThenReg x f r).run = s.run := rfl
@[simp] theorem State.cfg_setFlagThenReg (x : RegNum) (f r : Byte) : (s.setFlagThenReg x f r).cfg = s.cfg := rfl
@[simp] theorem State.draws_setFlagThenReg (x : RegNum) (f r : Byte) : (s.setFlagThenReg x f r).draws = s.draws := rfl
@[simp] theorem State.schedule_setFlagThenReg (x : RegNum) (f r : Byte) : (s.setFlagThenReg x f r).schedule = s.schedule := rfl

@[simp] theorem State.mem_setRegs (bs : List Byte) : (s.setRegs bs).mem = s.mem := rfl
@[simp] theorem State.i_setRegs (bs : List Byte) : (s.setRegs bs).i = s.i := rfl
@[simp] theorem State.pc_setRegs (bs : List Byte) : (s.setRegs bs).pc = s.pc := rfl
@[simp] theorem State.sp_setRegs (bs : List Byte) : (s.setRegs bs).sp = s.sp := rfl
@[simp] theorem State.dt_setRegs (bs : List Byte) : (s.setRegs bs).dt = s.dt := rfl
@[simp] theorem State.st_setRegs (bs : List Byte) : (s.setRegs bs).st = s.st := rfl
@[simp] theorem State.keys_setRegs (bs : List Byte) : (s.setRegs bs).keys = s.keys := rfl
@[simp] theorem State.run_setRegs (bs : List Byte) : (s.setRegs bs).run = s.run := rfl
@[simp] theorem State.cfg_setRegs (bs : List Byte) : (s.setRegs bs).cfg = s.cfg := rfl
@[simp] theorem State.draws_setRegs (bs : List Byte) : (s.setRegs bs).draws = s.draws := rfl
@[simp] theorem State.schedule_setRegs (bs : List Byte) : (s.setRegs bs).schedule = s.schedule := rfl

@[simp] theorem State.mem_setByte (a : Nat) (b : Byte) : (s.setByte a b).mem = Memory.write s.cfg.font s.mem a b := rfl
@[simp] theorem State.v_setByte (a : Nat) (b : Byte) : (s.setByte a b).v = s.v := rfl
@[simp] theorem State.i_setByte (a : Nat) (b : Byte) : (s.setByte a b).i = s.i := rfl
@[simp] theorem State.pc_setByte (a : Nat) (b : Byte) : (s.setByte a b).pc = s.pc := rfl
@[simp] theorem State.sp_setByte (a : Nat) (b : Byte) : (s.setByte a b).sp = s.sp := rfl
@[simp] theorem State.dt_setByte (a : Nat) (b : Byte) : (s.setByte a b).dt = s.dt := rfl
@[simp] theorem State.st_setByte (a : Nat) (b : Byte) : (s.setByte a b).st = s.st := rfl
@[simp] theorem State.keys_setByte (a : Nat) (b : Byte) : (s.setByte a b).keys = s.keys := rfl
@[simp] theorem State.run_setByte (a : Nat) (b : Byte) : (s.setByte a b).run = s.run := rfl
@[simp] theorem State.cfg_setByte (a : Nat) (b : Byte) : (s.setByte a b).cfg = s.cfg := rfl
@[simp] theorem State.draws_setByte (a : Nat) (b : Byte) : (s.setByte a b).draws = s.draws := rfl
@[simp] theorem State.schedule_setByte (a : Nat) (b : Byte) : (s.setByte a b).schedule = s.schedule := rfl

@[simp] theorem State.mem_advance : s.advance.mem = s.mem := rfl
@[simp] theorem State.v_advance : s.advance.v = s.v := rfl
@[simp] theorem State.i_advance : s.advance.i = s.i := rfl
@[simp] theorem State.pc_advance : s.advance.pc = s.pc + 2 := rfl
@[simp] theorem State.sp_advance : s.advance.sp = s.sp := rfl
@[simp] theorem State.dt_advance : s.advance.dt = s.dt := rfl
@[simp] theorem State.st_advance : s.advance.st = s.st := rfl
@[simp] theorem State.keys_advance : s.advance.keys = s.keys := rfl
@[simp] theorem State.run_advance : s.advance.run = s.run := rfl
@[simp] theorem State.cfg_advance : s.advance.cfg = s.cfg := rfl
@[simp] theorem State.draws_advance : s.advance.draws = s.draws := rfl
@[simp] theorem State.schedule_advance : s.advance.schedule = s.schedule := rfl

@[simp] theorem State.mem_skip : s.skip.mem = s.mem := rfl
@[simp] theorem State.v_skip : s.skip.v = s.v := rfl
@[simp] theorem State.i_skip : s.skip.i = s.i := rfl
@[simp] theorem State.pc_skip : s.skip.pc = s.pc + 4 := rfl
@[simp] theorem State.sp_skip : s.skip.sp = s.sp := rfl
@[simp] theorem State.dt_skip : s.skip.dt = s.dt := rfl
@[simp] theorem State.st_skip : s.skip.st = s.st := rfl
@[simp] theorem State.keys_skip : s.skip.keys = s.keys := rfl
@[simp] theorem State.run_skip : s.skip.run = s.run := rfl
@[simp] theorem State.cfg_skip : s.skip.cfg = s.cfg := rfl
@[simp] theorem State.draws_skip : s.skip.draws = s.draws := rfl
@[simp] theorem State.schedule_skip : s.skip.schedule = s.schedule := rfl

@[simp] theorem State.mem_jump (w : Word) : (s.jump w).mem = s.mem := rfl
@[simp] theorem State.v_jump (w : Word) : (s.jump w).v = s.v := rfl
@[simp] theorem State.i_jump (w : Word) : (s.jump w).i = s.i := rfl
@[simp] theorem State.pc_jump (w : Word) : (s.jump w).pc = w := rfl
@[simp] theorem State.sp_jump (w : Word) : (s.jump w).sp = s.sp := rfl
@[simp] theorem State.dt_jump (w : Word) : (s.jump w).dt = s.dt := rfl
@[simp] theorem State.st_jump (w : Word) : (s.jump w).st = s.st := rfl
@[simp] theorem State.keys_jump (w : Word) : (s.jump w).keys = s.keys := rfl
@[simp] theorem State.run_jump (w : Word) : (s.jump w).run = s.run := rfl
@[simp] theorem State.cfg_jump (w : Word) : (s.jump w).cfg = s.cfg := rfl
@[simp] theorem State.draws_jump (w : Word) : (s.jump w).draws = s.draws := rfl
@[simp] theorem State.schedule_jump (w : Word) : (s.jump w).schedule = s.schedule := rfl

@[simp] theorem State.mem_setI (a : Nat) : (s.setI a).mem = s.mem := rfl
@[simp] theorem State.v_setI (a : Nat) : (s.setI a).v = s.v := rfl
@[simp] theorem State.i_setI (a : Nat) : (s.setI a).i = BitVec.ofNat 16 a := rfl
@[simp] theorem State.pc_setI (a : Nat) : (s.setI a).pc = s.pc := rfl
@[simp] theorem State.sp_setI (a : Nat) : (s.setI a).sp = s.sp := rfl
@[simp] theorem State.dt_setI (a : Nat) : (s.setI a).dt = s.dt := rfl
@[simp] theorem State.st_setI (a : Nat) : (s.setI a).st = s.st := rfl
@[simp] theorem State.keys_setI (a : Nat) : (s.setI a).keys = s.keys := rfl
@[simp] theorem State.run_setI (a : Nat) : (s.setI a).run = s.run := rfl
@[simp] theorem State.cfg_setI (a : Nat) : (s.setI a).cfg = s.cfg := rfl
@[simp] theorem State.draws_setI (a : Nat) : (s.setI a).draws = s.draws := rfl
@[simp] theorem State.schedule_setI (a : Nat) : (s.setI a).schedule = s.schedule := rfl

@[simp] theorem State.mem_raise (c : Cause) : (s.raise c).mem = s.mem := rfl
@[simp] theorem State.v_raise (c : Cause) : (s.raise c).v = s.v := rfl
@[simp] theorem State.i_raise (c : Cause) : (s.raise c).i = s.i := rfl
@[simp] theorem State.pc_raise (c : Cause) : (s.raise c).pc = s.pc := rfl
@[simp] theorem State.sp_raise (c : Cause) : (s.raise c).sp = s.sp := rfl
@[simp] theorem State.dt_raise (c : Cause) : (s.raise c).dt = s.dt := rfl
@[simp] theorem State.st_raise (c : Cause) : (s.raise c).st = s.st := rfl
@[simp] theorem State.keys_raise (c : Cause) : (s.raise c).keys = s.keys := rfl
@[simp] theorem State.run_raise (c : Cause) : (s.raise c).run = .faulted c := rfl
@[simp] theorem State.cfg_raise (c : Cause) : (s.raise c).cfg = s.cfg := rfl
@[simp] theorem State.draws_raise (c : Cause) : (s.raise c).draws = s.draws := rfl
@[simp] theorem State.schedule_raise (c : Cause) : (s.raise c).schedule = s.schedule := rfl

@[simp] theorem State.v_clearFramebuffer : s.clearFramebuffer.v = s.v := by simp only [State.clearFramebuffer]
@[simp] theorem State.i_clearFramebuffer : s.clearFramebuffer.i = s.i := by simp only [State.clearFramebuffer]
@[simp] theorem State.pc_clearFramebuffer : s.clearFramebuffer.pc = s.pc := by simp only [State.clearFramebuffer]
@[simp] theorem State.sp_clearFramebuffer : s.clearFramebuffer.sp = s.sp := by simp only [State.clearFramebuffer]
@[simp] theorem State.dt_clearFramebuffer : s.clearFramebuffer.dt = s.dt := by simp only [State.clearFramebuffer]
@[simp] theorem State.st_clearFramebuffer : s.clearFramebuffer.st = s.st := by simp only [State.clearFramebuffer]
@[simp] theorem State.keys_clearFramebuffer : s.clearFramebuffer.keys = s.keys := by simp only [State.clearFramebuffer]
@[simp] theorem State.run_clearFramebuffer : s.clearFramebuffer.run = s.run := by simp only [State.clearFramebuffer]
@[simp] theorem State.cfg_clearFramebuffer : s.clearFramebuffer.cfg = s.cfg := by simp only [State.clearFramebuffer]
@[simp] theorem State.draws_clearFramebuffer : s.clearFramebuffer.draws = s.draws := by simp only [State.clearFramebuffer]
@[simp] theorem State.schedule_clearFramebuffer : s.clearFramebuffer.schedule = s.schedule := by simp only [State.clearFramebuffer]

@[simp] theorem State.mem_takeEvent : s.takeEvent.mem = s.mem := rfl
@[simp] theorem State.v_takeEvent : s.takeEvent.v = s.v := rfl
@[simp] theorem State.i_takeEvent : s.takeEvent.i = s.i := rfl
@[simp] theorem State.pc_takeEvent : s.takeEvent.pc = s.pc := rfl
@[simp] theorem State.sp_takeEvent : s.takeEvent.sp = s.sp := rfl
@[simp] theorem State.dt_takeEvent : s.takeEvent.dt = s.dt := rfl
@[simp] theorem State.st_takeEvent : s.takeEvent.st = s.st := rfl
@[simp] theorem State.keys_takeEvent : s.takeEvent.keys = s.keys := rfl
@[simp] theorem State.run_takeEvent : s.takeEvent.run = s.run := rfl
@[simp] theorem State.cfg_takeEvent : s.takeEvent.cfg = s.cfg := rfl
@[simp] theorem State.draws_takeEvent : s.takeEvent.draws = s.draws := rfl
@[simp] theorem State.schedule_takeEvent : s.takeEvent.schedule = s.schedule.tail := rfl

@[simp] theorem State.mem_draw : s.draw.2.mem = s.mem := rfl
@[simp] theorem State.v_draw : s.draw.2.v = s.v := rfl
@[simp] theorem State.i_draw : s.draw.2.i = s.i := rfl
@[simp] theorem State.pc_draw : s.draw.2.pc = s.pc := rfl
@[simp] theorem State.sp_draw : s.draw.2.sp = s.sp := rfl
@[simp] theorem State.dt_draw : s.draw.2.dt = s.dt := rfl
@[simp] theorem State.st_draw : s.draw.2.st = s.st := rfl
@[simp] theorem State.keys_draw : s.draw.2.keys = s.keys := rfl
@[simp] theorem State.run_draw : s.draw.2.run = s.run := rfl
@[simp] theorem State.cfg_draw : s.draw.2.cfg = s.cfg := rfl
@[simp] theorem State.draws_draw : s.draw.2.draws = s.draws + 1 := rfl
@[simp] theorem State.schedule_draw : s.draw.2.schedule = s.schedule := rfl
@[simp] theorem State.value_draw : s.draw.1 = Config.draw s.draws := rfl

/-! Registers. -/

@[simp] theorem State.reg_setReg (k j : RegNum) (b : Byte) :
    (s.setReg k b).reg j = if j = k then b else s.reg j := by
  simp only [State.reg, State.setReg, Fin.getElem_fin, Vector.getElem_set, Fin.ext_iff, eq_comm]

/-- With `x = 15` the result stays (R24). -/
@[simp] theorem State.reg_setFlagThenReg (x j : RegNum) (f r : Byte) :
    (s.setFlagThenReg x f r).reg j = if j = x then r else if j = flagReg then f else s.reg j := by
  simp [State.setFlagThenReg]

@[simp] theorem State.reg_setRegs (bs : List Byte) (j : RegNum) :
    (s.setRegs bs).reg j = bs.getD j (s.reg j) := by
  simp [State.reg, State.setRegs]

@[simp] theorem State.reg_setByte (a : Nat) (b : Byte) (k : RegNum) : (s.setByte a b).reg k = s.reg k := rfl
@[simp] theorem State.reg_advance (k : RegNum) : s.advance.reg k = s.reg k := rfl
@[simp] theorem State.reg_skip (k : RegNum) : s.skip.reg k = s.reg k := rfl
@[simp] theorem State.reg_jump (w : Word) (k : RegNum) : (s.jump w).reg k = s.reg k := rfl
@[simp] theorem State.reg_setI (a : Nat) (k : RegNum) : (s.setI a).reg k = s.reg k := rfl
@[simp] theorem State.reg_raise (c : Cause) (k : RegNum) : (s.raise c).reg k = s.reg k := rfl
@[simp] theorem State.reg_clearFramebuffer (k : RegNum) : s.clearFramebuffer.reg k = s.reg k := by simp only [State.reg, State.clearFramebuffer]
@[simp] theorem State.reg_takeEvent (k : RegNum) : s.takeEvent.reg k = s.reg k := rfl
@[simp] theorem State.reg_draw (k : RegNum) : s.draw.2.reg k = s.reg k := rfl

/-- Two states with the same 16 registers hold the same register file. -/
theorem State.v_eq_of_reg {s t : State} (h : ∀ k, s.reg k = t.reg k) : s.v = t.v := by
  apply Vector.ext
  intro k hk
  exact h ⟨k, hk⟩

/-! Bytes of memory. -/

theorem State.byte_eq (a : Nat) : s.byte a = Memory.read s.cfg.font s.mem a := rfl

@[simp] theorem State.byte_setByte (a c : Nat) (b : Byte) :
    (s.setByte a b).byte c = if c = a then b else s.byte c := by
  simp [State.byte, State.setByte, Memory.read_write]

@[simp] theorem State.byte_clearFramebuffer (a : Nat) :
    s.clearFramebuffer.byte a = if 3840 ≤ a ∧ a < 4096 then 0 else s.byte a := by
  rw [State.byte_eq, State.clearFramebuffer, Memory.read_fill]
  rfl

@[simp] theorem State.byte_setReg (k : RegNum) (b : Byte) (c : Nat) : (s.setReg k b).byte c = s.byte c := rfl
@[simp] theorem State.byte_setFlagThenReg (x : RegNum) (f r : Byte) (c : Nat) : (s.setFlagThenReg x f r).byte c = s.byte c := rfl
@[simp] theorem State.byte_setRegs (bs : List Byte) (c : Nat) : (s.setRegs bs).byte c = s.byte c := rfl
@[simp] theorem State.byte_advance (c : Nat) : s.advance.byte c = s.byte c := rfl
@[simp] theorem State.byte_skip (c : Nat) : s.skip.byte c = s.byte c := rfl
@[simp] theorem State.byte_jump (w : Word) (c : Nat) : (s.jump w).byte c = s.byte c := rfl
@[simp] theorem State.byte_setI (a : Nat) (c : Nat) : (s.setI a).byte c = s.byte c := rfl
@[simp] theorem State.byte_raise (f : Cause) (c : Nat) : (s.raise f).byte c = s.byte c := rfl
@[simp] theorem State.byte_takeEvent (c : Nat) : s.takeEvent.byte c = s.byte c := rfl
@[simp] theorem State.byte_draw (c : Nat) : s.draw.2.byte c = s.byte c := rfl

/-- A state with the same memory and font reads the same bytes. -/
theorem State.byte_congr {s t : State} (hm : t.mem = s.mem) (hc : t.cfg = s.cfg) (a : Nat) :
    t.byte a = s.byte a := by
  simp [State.byte, hm, hc]

end Sys2Proof.Machine
end

