-- ==== Sys2Proof/Laws/Ops.lean ====
section
/-! SUPPORT. One lemma for each shared operation that says everything it can do: the access primitives, the runs
of bytes, the call stack, the fetch. -/

namespace Sys2Proof.Machine

theorem memRead_eq (s : State) (a : Nat) :
    memRead s a = if a < 4096 then .ok (s.byte a) else .error (.addressOverrun a) := by
  unfold memRead Config.memSize
  by_cases h : a < 4096
  · rw [if_neg (by omega), if_pos h]
  · rw [if_pos (by omega), if_neg h]

theorem memWrite_eq (s : State) (a : Nat) (b : Byte) :
    memWrite s a b = if a < 4096 then .ok (s.setByte a b) else .error (.addressOverrun a) := by
  unfold memWrite Config.memSize
  by_cases h : a < 4096
  · rw [if_neg (by omega), if_pos h]
  · rw [if_pos (by omega), if_neg h]

theorem memRead2_eq (s : State) (a : Nat) :
    memRead2 s a = if a + 1 < 4096 then .ok (wordOf (s.byte a) (s.byte (a + 1)))
      else .error (.addressOverrun (max a 4096)) := by
  unfold memRead2
  simp only [memRead_eq]
  by_cases h : a < 4096
  · by_cases h1 : a + 1 < 4096
    · simp [h, h1]
    · simp [h, show a + 1 = max a 4096 by omega]
  · simp [h, show ¬a + 1 < 4096 by omega, show max a 4096 = a by omega]

theorem writeBytes_eq (bs : List Byte) : ∀ (s : State) (a : Nat),
    writeBytes s a bs = if bs = [] ∨ a + bs.length ≤ 4096
      then .ok { s with mem := Memory.writeList s.cfg.font s.mem a bs }
      else .error (.addressOverrun (max a 4096)) := by
  induction bs with
  | nil => intro s a; simp [writeBytes, Memory.writeList]
  | cons b bs ih =>
    intro s a
    simp only [writeBytes, memWrite_eq, List.length_cons, reduceCtorEq, false_or]
    by_cases h : a < 4096
    · simp only [h, if_true, ih]
      by_cases h1 : a + (bs.length + 1) ≤ 4096
      · rw [if_pos (by right; omega), if_pos h1]; rfl
      · rw [if_neg ?_, if_neg h1, show max (a + 1) 4096 = max a 4096 by omega]
        rintro (rfl | h2)
        · simp at h1; omega
        · omega
    · rw [if_neg h, if_neg (by omega), show max a 4096 = a by omega]

theorem memWrite2_eq (s : State) (a : Nat) (w : Word) :
    memWrite2 s a w = if a + 1 < 4096
      then .ok { s with mem := Memory.writeList s.cfg.font s.mem a [hi8 w, lo8 w] }
      else .error (.addressOverrun (max a 4096)) := by
  have h : memWrite2 s a w = writeBytes s a [hi8 w, lo8 w] := by
    simp only [memWrite2, writeBytes]
    cases memWrite s a (hi8 w) with
    | error c => rfl
    | ok t => simp only; cases memWrite t (a + 1) (lo8 w) <;> rfl
  rw [h, writeBytes_eq]
  by_cases h1 : a + 1 < 4096
  · rw [if_pos (by right; simp; omega), if_pos h1]
  · rw [if_neg (by simp; omega), if_neg h1]

theorem readBytes_eq (s : State) (n : Nat) : ∀ a : Nat,
    readBytes s a n = if n = 0 ∨ a + n ≤ 4096 then .ok ((List.range n).map (fun k => s.byte (a + k)))
      else .error (.addressOverrun (max a 4096)) := by
  induction n with
  | zero => intro a; simp [readBytes]
  | succ n ih =>
    intro a
    simp only [readBytes, memRead_eq, ih]
    by_cases h : a < 4096
    · simp only [h, if_true]
      by_cases h1 : a + (n + 1) ≤ 4096
      · rw [if_pos (by omega), if_pos (by omega)]
        simp [List.range_succ_eq_map, Nat.add_assoc, Nat.add_comm 1]
      · rw [if_neg (by omega), if_neg (by omega), show max (a + 1) 4096 = max a 4096 by omega]
    · simp only [h, if_false]
      rw [if_neg (by omega), show max a 4096 = a by omega]

/-- Reading a byte after a run of writes. -/
theorem byte_of_writeList (s : State) (a c : Nat) (bs : List Byte) :
    ({ s with mem := Memory.writeList s.cfg.font s.mem a bs } : State).byte c =
      if a ≤ c ∧ c < a + bs.length then bs.getD (c - a) 0 else s.byte c :=
  Memory.read_writeList _ _ _ _ _

theorem push_eq (s : State) (w : Word) :
    push s w = if s.sp.toNat < s.cfg.stackLo then .error .stackOverflow
      else if s.sp.toNat + 1 < 4096 then
        .ok { s with mem := Memory.writeList s.cfg.font s.mem s.sp.toNat [hi8 w, lo8 w], sp := s.sp - 2 }
      else .error (.addressOverrun (max s.sp.toNat 4096)) := by
  simp only [push, memWrite2_eq]
  split
  · rfl
  · by_cases h : s.sp.toNat + 1 < 4096 <;> simp [h]

theorem pop_eq (s : State) :
    pop s = if s.sp.toNat = s.cfg.stackHi - 2 then .error .stackUnderflow
      else if (s.sp + 2).toNat + 1 < 4096 then
        .ok (wordOf (s.byte (s.sp + 2).toNat) (s.byte ((s.sp + 2).toNat + 1)), { s with sp := s.sp + 2 })
      else .error (.addressOverrun (max (s.sp + 2).toNat 4096)) := by
  simp only [pop, memRead2_eq]
  split
  · rfl
  · by_cases h : (s.sp + 2).toNat + 1 < 4096
    · simp only [h, if_true]; rfl
    · simp only [h, if_false]

theorem fetch_eq (s : State) :
    fetch s = if s.pc.toNat + 1 < 4096 then .ok (wordOf (s.byte s.pc.toNat) (s.byte (s.pc.toNat + 1)))
      else .error (.addressOverrun (max s.pc.toNat 4096)) :=
  memRead2_eq s _

@[simp] theorem finish_ok (s t : State) : finish s (.ok t) = .next t := rfl
@[simp] theorem finish_error (s : State) (c : Cause) : finish s (.error c) = .next (s.raise c) := rfl

/-- A step that may have raised either did all it does or nothing but fault entry (R186). -/
theorem finish_cases {s t : State} {r : Except Cause State} (h : finish s r = .next t) :
    r = .ok t ∨ ∃ c, r = .error c ∧ t = s.raise c := by
  cases r with
  | ok u => simp only [finish_ok, Host.Outcome.next.injEq] at h; exact .inl (h ▸ rfl)
  | error c => simp only [finish_error, Host.Outcome.next.injEq] at h; exact .inr ⟨c, rfl, h.symm⟩

@[simp] theorem skipIf_eq (s : State) (cond : Bool) :
    skipIf s cond = .next { s with pc := if cond then s.pc + 4 else s.pc + 2 } := by
  cases cond <;> rfl

@[simp] theorem isFaulted_raise (s : State) (c : Cause) : (s.raise c).isFaulted = true := rfl

end Sys2Proof.Machine
end

