-- ==== Sys2Proof/Laws/Draw.lean ====
section
/-! SUPPORT. The drawing operations: what a row and a list of rows do to every pixel and byte, when they fault and
at which address (spec/44_display.md rule R154). -/

namespace Sys2Proof.Machine

theorem xorByte_eq (s : State) (a : Nat) (mask : Byte) :
    xorByte s a mask = if a < 4096 then .ok (s.setByte a (s.byte a ^^^ mask), s.byte a &&& mask != 0)
      else .error (.addressOverrun a) := by
  by_cases h : a < 4096 <;> simp [xorByte, memRead_eq, memWrite_eq, h]

/-- The bytes of one row are inside memory. -/
def rowFits (b : Nat) : Prop := 3840 + b / 8 < 4096 ∧ (b % 8 ≠ 0 → 3840 + b / 8 + 1 < 4096)

/-- A pixel after a byte of the framebuffer is written. -/
theorem State.pixel_setByte (s : State) (k p : Nat) (v : Byte) :
    (s.setByte (3840 + k) v).pixel p = if p / 8 = k then v.getLsbD (7 - p % 8) else s.pixel p := by
  simp only [State.pixel, State.byte_setByte, Config.fbBase, Nat.add_left_cancel_iff]
  split <;> rfl

theorem rowCovers_first (row : Byte) {b p : Nat} (h : p / 8 = b / 8) :
    (row >>> (b % 8)).getLsbD (7 - p % 8) = rowCovers row b p := by
  simp only [BitVec.getLsbD_ushiftRight, rowCovers]
  by_cases hb : b ≤ p
  · rw [show b % 8 + (7 - p % 8) = 7 - (p - b) by omega]
    simp [hb, show p < b + 8 by omega]
  · rw [BitVec.getLsbD_of_ge _ _ (by omega)]; simp [hb]

theorem rowCovers_second (row : Byte) {b p : Nat} (_ : b % 8 ≠ 0) (h : p / 8 = b / 8 + 1) :
    (row <<< (8 - b % 8)).getLsbD (7 - p % 8) = rowCovers row b p := by
  simp only [BitVec.getLsbD_shiftLeft, rowCovers]
  by_cases hp : p < b + 8
  · rw [show 7 - p % 8 - (8 - b % 8) = 7 - (p - b) by omega]
    simp [hp, show b ≤ p by omega, show 7 - p % 8 < 8 by omega, show ¬7 - p % 8 < 8 - b % 8 by omega]
  · simp [hp, show 7 - p % 8 < 8 - b % 8 by omega]

theorem rowCovers_other (row : Byte) {b p : Nat} (h0 : p / 8 ≠ b / 8)
    (h1 : b % 8 = 0 ∨ p / 8 ≠ b / 8 + 1) : rowCovers row b p = false := by
  simp only [rowCovers]
  by_cases hb : b ≤ p ∧ p < b + 8
  · omega
  · rcases not_and_or.1 hb with hb | hb <;> simp [hb]

/-- Two bytes have a 1 at the same place. -/
theorem and_ne_zero_iff (a m : Byte) :
    (a &&& m != 0) = true ↔ ∃ j, j < 8 ∧ a.getLsbD (7 - j) = true ∧ m.getLsbD (7 - j) = true := by
  rw [bne_iff_ne, ne_eq, ← not_iff_not, not_not]
  constructor
  · rintro h ⟨j, hj, ha, hm⟩
    have := congrArg (fun v => v.getLsbD (7 - j)) h
    simp [ha, hm] at this
  · intro h
    apply BitVec.eq_of_getLsbD_eq
    intro i hi
    have h1 := fun (ha : a.getLsbD i = true) (hm : m.getLsbD i = true) =>
      h ⟨7 - i, by omega, by rw [show 7 - (7 - i) = i by omega]; exact ha,
        by rw [show 7 - (7 - i) = i by omega]; exact hm⟩
    cases ha : a.getLsbD i <;> cases hm : m.getLsbD i <;> simp_all

/-- The collision of one byte, said of pixels. -/
theorem collide_iff (s : State) (k : Nat) (m : Byte) (row : Byte) (b : Nat)
    (hm : ∀ p, p / 8 = k → m.getLsbD (7 - p % 8) = rowCovers row b p) :
    (s.byte (3840 + k) &&& m != 0) = true ↔
      ∃ p, p / 8 = k ∧ rowCovers row b p = true ∧ s.pixel p = true := by
  rw [and_ne_zero_iff]
  constructor
  · rintro ⟨j, hj, ha, hb⟩
    refine ⟨8 * k + j, by omega, ?_, ?_⟩
    · rw [← hm _ (by omega), show (8 * k + j) % 8 = j by omega]; exact hb
    · simp only [State.pixel, Config.fbBase]
      rw [show (8 * k + j) / 8 = k by omega, show (8 * k + j) % 8 = j by omega]; exact ha
  · rintro ⟨p, hp, hc, hl⟩
    refine ⟨p % 8, by omega, ?_, ?_⟩
    · simp only [State.pixel, Config.fbBase, hp] at hl; exact hl
    · rw [hm p hp]; exact hc

/-- What drawing one row does when its bytes are in range: every pixel is XORed with the sprite's bit over it,
only framebuffer bytes change, memory stays canonical, and the collision is a lit pixel under a 1-bit. -/
structure RowDrawn (s t : State) (hit : Bool) (covers : Nat → Bool) : Prop where
  rest : t = { s with mem := t.mem }
  pixel : ∀ p, t.pixel p = (s.pixel p ^^ covers p)
  outside : ∀ a, a < 3840 ∨ 4096 ≤ a → t.byte a = s.byte a
  wf : Memory.wf s.cfg.font s.mem → Memory.wf s.cfg.font t.mem
  hit : hit = true ↔ ∃ p, covers p = true ∧ s.pixel p = true

theorem drawRow_of_fits (s : State) {b : Nat} (row : Byte) (h : rowFits b) :
    ∃ t hit, drawRow s b row = .ok (t, hit) ∧ RowDrawn s t hit (rowCovers row b) := by
  obtain ⟨h0, h1⟩ := h
  unfold drawRow
  simp only [xorByte_eq, Config.fbBase, h0, if_true]
  by_cases hb : b % 8 = 0
  · simp only [hb, if_true]
    refine ⟨_, _, rfl, ⟨rfl, fun p => ?_, fun a ha => ?_, fun w => Memory.wf_write w h0 _, ?_⟩⟩
    · rw [State.pixel_setByte]
      by_cases hp : p / 8 = b / 8
      · rw [if_pos hp, BitVec.getLsbD_xor, ← rowCovers_first row hp, hb]
        simp only [State.pixel, Config.fbBase, hp]
      · rw [if_neg hp, rowCovers_other row hp (.inl hb), Bool.xor_false]
    · rw [State.byte_setByte, if_neg (by omega)]
    · rw [collide_iff s (b / 8) _ row b fun p hp => by rw [← rowCovers_first row hp, hb]]
      constructor
      · rintro ⟨p, -, hp⟩; exact ⟨p, hp⟩
      · rintro ⟨p, hc, hl⟩
        refine ⟨p, ?_, hc, hl⟩
        by_contra hp
        rw [rowCovers_other row hp (.inl hb)] at hc; cases hc
  · have h1' := h1 hb
    simp only [hb, if_false, h1', if_true]
    refine ⟨_, _, rfl, ⟨rfl, fun p => ?_, fun a ha => ?_,
      fun w => Memory.wf_write (Memory.wf_write w h0 _) h1' _, ?_⟩⟩
    · rw [Nat.add_assoc, State.pixel_setByte, State.pixel_setByte, State.byte_setByte,
        if_neg (show ¬3840 + (b / 8 + 1) = 3840 + b / 8 by omega)]
      by_cases hp : p / 8 = b / 8 + 1
      · rw [if_pos hp, BitVec.getLsbD_xor, rowCovers_second row hb hp]
        simp only [State.pixel, Config.fbBase, hp]
      · rw [if_neg hp]
        by_cases hp0 : p / 8 = b / 8
        · rw [if_pos hp0, BitVec.getLsbD_xor, rowCovers_first row hp0]
          simp only [State.pixel, Config.fbBase, hp0]
        · rw [if_neg hp0, rowCovers_other row hp0 (.inr hp), Bool.xor_false]
    · rw [State.byte_setByte, if_neg (by omega), State.byte_setByte, if_neg (by omega)]
    · rw [Bool.or_eq_true, collide_iff s (b / 8) _ row b fun p hp => rowCovers_first row hp,
        State.byte_setByte, if_neg (by omega), Nat.add_assoc,
        collide_iff s (b / 8 + 1) _ row b fun p hp => rowCovers_second row hb hp]
      constructor
      · rintro (⟨p, -, hp⟩ | ⟨p, -, hp⟩) <;> exact ⟨p, hp⟩
      · rintro ⟨p, hc, hl⟩
        by_cases hp0 : p / 8 = b / 8
        · exact .inl ⟨p, hp0, hc, hl⟩
        · by_cases hp : p / 8 = b / 8 + 1
          · exact .inr ⟨p, hp, hc, hl⟩
          · rw [rowCovers_other row hp0 (.inr hp)] at hc; cases hc

/-- A row whose bytes are not all in range faults at the first of them that is not. -/
theorem drawRow_of_not_fits (s : State) {b : Nat} (row : Byte) (h : ¬rowFits b) :
    drawRow s b row = .error (.addressOverrun (max (3840 + b / 8) 4096)) := by
  unfold drawRow
  simp only [xorByte_eq, Config.fbBase]
  by_cases h0 : 3840 + b / 8 < 4096
  · have h1 : b % 8 ≠ 0 ∧ ¬3840 + b / 8 + 1 < 4096 := by
      simp only [rowFits, not_and, Classical.not_imp] at h; exact h h0
    simp only [h0, if_true, h1.1, if_false, h1.2]
    rw [show 3840 + b / 8 + 1 = max (3840 + b / 8) 4096 by omega]
  · simp only [h0, if_false]
    rw [show max (3840 + b / 8) 4096 = 3840 + b / 8 by omega]

/-- No access of a row in range is out of range. -/
theorem find_rowAccesses_of_fits {b : Nat} (h : rowFits b) :
    (rowAccesses b).find? (fun a => 4096 ≤ a) = none := by
  unfold rowAccesses
  obtain ⟨h0, h1⟩ := h
  by_cases hb : b % 8 = 0
  · simp only [hb, if_true, List.find?, show ¬4096 ≤ 3840 + b / 8 by omega, decide_false]
  · have := h1 hb
    simp only [hb, if_false, List.find?, show ¬4096 ≤ 3840 + b / 8 by omega,
      show ¬4096 ≤ 3840 + b / 8 + 1 by omega, decide_false]

/-- The first access of a row that is out of range. -/
theorem find_rowAccesses_of_not_fits {b : Nat} (h : ¬rowFits b) :
    (rowAccesses b).find? (fun a => 4096 ≤ a) = some (max (3840 + b / 8) 4096) := by
  unfold rowAccesses
  by_cases h0 : 3840 + b / 8 < 4096
  · have h1 : b % 8 ≠ 0 ∧ ¬3840 + b / 8 + 1 < 4096 := by
      simp only [rowFits, not_and, Classical.not_imp] at h; exact h h0
    simp only [h1.1, if_false, List.find?, show ¬4096 ≤ 3840 + b / 8 by omega,
      show 4096 ≤ 3840 + b / 8 + 1 by omega, decide_true, decide_false]
    rw [show 3840 + b / 8 + 1 = max (3840 + b / 8) 4096 by omega]
  · rw [show max (3840 + b / 8) 4096 = 3840 + b / 8 by omega]
    by_cases hb : b % 8 = 0 <;>
      simp only [hb, if_true, if_false, List.find?, show 4096 ≤ 3840 + b / 8 by omega, decide_true]

/-- Some row of the list, from the bit offset `b` on, has a 1-bit over the pixel. -/
def rowsCover : List Byte → Nat → Nat → Bool
  | [], _, _ => false
  | row :: rows, b, p => rowCovers row b p || rowsCover rows (b + 64) p

theorem le_of_rowsCover {rows : List Byte} : ∀ {b p : Nat}, rowsCover rows b p = true → b ≤ p := by
  induction rows with
  | nil => intro b p h; simp [rowsCover] at h
  | cons row rows ih =>
    intro b p h
    simp only [rowsCover, Bool.or_eq_true] at h
    rcases h with h | h
    · simp only [rowCovers, Bool.and_eq_true, decide_eq_true_eq] at h; omega
    · have := ih h; omega

/-- Rows never overlap one another (R154). -/
theorem rowsCover_disjoint (row : Byte) (rows : List Byte) (b p : Nat) :
    rowCovers row b p = false ∨ rowsCover rows (b + 64) p = false := by
  cases h : rowsCover rows (b + 64) p with
  | false => exact .inr rfl
  | true =>
    have := le_of_rowsCover h
    left; simp [rowCovers, show ¬p < b + 8 by omega]

theorem rowsCover_eq_any (rows : List Byte) : ∀ (b p : Nat),
    rowsCover rows b p = (List.range rows.length).any (fun r => rowCovers (rows.getD r 0) (b + 64 * r) p) := by
  induction rows with
  | nil => intro b p; rfl
  | cons row rows ih =>
    intro b p
    rw [rowsCover, ih, List.length_cons, List.range_succ_eq_map, List.any_cons, List.any_map]
    congr 1
    congr 1
    funext r
    simp only [Function.comp, List.getD_cons_succ]
    rw [show b + 64 * r.succ = b + 64 + 64 * r by omega]

theorem rowsAccesses_succ (b n : Nat) :
    rowsAccesses b (n + 1) = rowAccesses b ++ rowsAccesses (b + 64) n := by
  simp only [rowsAccesses, List.range_succ_eq_map, List.flatMap_cons, List.flatMap_map]
  congr 1
  congr 1
  funext r
  rw [show b + 64 * r.succ = b + 64 + 64 * r by omega]

/-- What drawing a list of rows does: it faults at the first access out of range, or draws them all. -/
theorem drawRows_cases (rows : List Byte) : ∀ (s : State) (b : Nat),
    match (rowsAccesses b rows.length).find? (fun a => 4096 ≤ a) with
    | some a => drawRows s b rows = .error (.addressOverrun a)
    | none => ∃ t hit, drawRows s b rows = .ok (t, hit) ∧ RowDrawn s t hit (rowsCover rows b) := by
  induction rows with
  | nil =>
    intro s b
    exact ⟨s, false, rfl, rfl, fun p => by simp [rowsCover], fun _ _ => rfl, id, by simp [rowsCover]⟩
  | cons row rows ih =>
    intro s b
    rw [List.length_cons, rowsAccesses_succ, List.find?_append]
    by_cases hf : rowFits b
    · rw [find_rowAccesses_of_fits hf, Option.none_or]
      obtain ⟨t, hit, hd, ht⟩ := drawRow_of_fits s row hf
      have hi := ih t (b + 64)
      split at hi
      · rename_i a ha
        simp only [drawRows, hd, Config.fbWidth, hi]
      · rename_i ha
        obtain ⟨u, hits, hr, hu⟩ := hi
        refine ⟨u, hit || hits, by simp only [drawRows, hd, Config.fbWidth, hr], ?_, fun p => ?_, fun a h => ?_,
          fun w => ?_, ?_⟩
        · rw [hu.rest, ht.rest]
        · rw [hu.pixel, ht.pixel, rowsCover]
          rcases rowsCover_disjoint row rows b p with h | h <;> simp [h]
        · rw [hu.outside a h, ht.outside a h]
        · have hc : t.cfg = s.cfg := by rw [ht.rest]
          have := hu.wf (hc ▸ ht.wf w)
          rwa [hc] at this
        · rw [Bool.or_eq_true, ht.hit, hu.hit]
          constructor
          · rintro (⟨p, hc, hl⟩ | ⟨p, hc, hl⟩)
            · exact ⟨p, by simp [rowsCover, hc], hl⟩
            · refine ⟨p, by simp [rowsCover, hc], ?_⟩
              rw [ht.pixel] at hl
              rcases rowsCover_disjoint row rows b p with h | h
              · simpa [h] using hl
              · rw [h] at hc; cases hc
          · rintro ⟨p, hc, hl⟩
            simp only [rowsCover, Bool.or_eq_true] at hc
            rcases hc with hc | hc
            · exact .inl ⟨p, hc, hl⟩
            · refine .inr ⟨p, hc, ?_⟩
              rw [ht.pixel]
              rcases rowsCover_disjoint row rows b p with h | h
              · simpa [h] using hl
              · rw [h] at hc; cases hc
    · rw [find_rowAccesses_of_not_fits hf, Option.some_or]
      simp only [drawRows, drawRow_of_not_fits s row hf]

end Sys2Proof.Machine
end

