-- ==== Sys2Proof/Laws/Encoding.lean ====
section
/-! SUPPORT. The words of the five formats as numbers, and the three masks of the opcode map as arithmetic. -/

namespace Sys2Proof

theorem wordA_toNat {f : Nat} (hf : f < 16) (nnn : BitVec 12) :
    (wordA f nnn).toNat = f * 4096 + nnn.toNat := by
  have := nnn.isLt
  simp only [wordA, BitVec.toNat_ofNat]; omega

theorem wordXI_toNat {f : Nat} (hf : f < 16) (x : RegNum) (nn : Byte) :
    (wordXI f x nn).toNat = f * 4096 + x.val * 256 + nn.toNat := by
  have := nn.isLt; have := x.isLt
  simp only [wordXI, BitVec.toNat_ofNat]; omega

theorem wordXY_toNat {f n : Nat} (hf : f < 16) (hn : n < 16) (x y : RegNum) :
    (wordXY f x y n).toNat = f * 4096 + x.val * 256 + y.val * 16 + n := by
  have := x.isLt; have := y.isLt
  simp only [wordXY, BitVec.toNat_ofNat]; omega

theorem wordXS_toNat {f n : Nat} (hf : f < 16) (hn : n < 256) (x : RegNum) :
    (wordXS f x n).toNat = f * 4096 + x.val * 256 + n := by
  have := x.isLt
  simp only [wordXS, BitVec.toNat_ofNat]; omega

/-- The two bytes of a word, put together again, are the word (R53). -/
@[simp] theorem wordOf_hi8_lo8 (w : Word) : wordOf (hi8 w) (lo8 w) = w := by
  have := w.isLt
  apply BitVec.eq_of_toNat_eq
  simp only [wordOf, hi8, lo8, BitVec.toNat_ofNat]; omega

theorem and_F000 {n : Nat} (h : n < 65536) : n &&& 0xF000 = n / 4096 * 4096 := by
  apply Nat.eq_of_testBit_eq
  intro i
  rw [Nat.testBit_and, show (0xF000 : Nat) = (2 ^ 4 - 1) * 2 ^ 12 by rfl,
    show (4096 : Nat) = 2 ^ 12 by rfl, Nat.testBit_mul_two_pow, Nat.testBit_mul_two_pow,
    Nat.testBit_two_pow_sub_one, Nat.testBit_div_two_pow]
  by_cases h12 : 12 ≤ i
  · rw [show i - 12 + 12 = i by omega]
    by_cases h16 : i < 16
    · simp [h12, show i - 12 < 4 by omega]
    · rw [Nat.testBit_lt_two_pow (lt_of_lt_of_le h (Nat.pow_le_pow_right (by decide) (by omega) : 2 ^ 16 ≤ 2 ^ i))]
      simp
  · simp [h12]

theorem or_eq_add_of_lt {a k b : Nat} (h : b < 2 ^ k) : a * 2 ^ k ||| b = a * 2 ^ k + b := by
  rw [Nat.mul_comm, Nat.two_pow_add_eq_or_of_lt h]

theorem and_F00F {n : Nat} (h : n < 65536) : n &&& 0xF00F = n / 4096 * 4096 + n % 16 := by
  rw [show (0xF00F : Nat) = 0xF000 ||| (2 ^ 4 - 1) by rfl, Nat.and_or_distrib_left, and_F000 h,
    Nat.and_two_pow_sub_one_eq_mod]
  exact or_eq_add_of_lt (k := 12) (by omega)

theorem and_F0FF {n : Nat} (h : n < 65536) : n &&& 0xF0FF = n / 4096 * 4096 + n % 256 := by
  rw [show (0xF0FF : Nat) = 0xF000 ||| (2 ^ 8 - 1) by rfl, Nat.and_or_distrib_left, and_F000 h,
    Nat.and_two_pow_sub_one_eq_mod]
  exact or_eq_add_of_lt (k := 12) (by omega)

/-- A row that fixes the family alone. -/
theorem selects_F000 (p : String) (b op : Word) :
    OpcodeRow.selects ⟨p, 0xF000, b⟩ op = true ↔ op.toNat / 4096 * 4096 = b.toNat := by
  rw [OpcodeRow.selects, beq_iff_eq, ← BitVec.toNat_inj, BitVec.toNat_and, ← and_F000 op.isLt]; rfl

/-- A row that fixes the family and the low nibble. -/
theorem selects_F00F (p : String) (b op : Word) :
    OpcodeRow.selects ⟨p, 0xF00F, b⟩ op = true ↔ op.toNat / 4096 * 4096 + op.toNat % 16 = b.toNat := by
  rw [OpcodeRow.selects, beq_iff_eq, ← BitVec.toNat_inj, BitVec.toNat_and, ← and_F00F op.isLt]; rfl

/-- A row that fixes the family and the low byte. -/
theorem selects_F0FF (p : String) (b op : Word) :
    OpcodeRow.selects ⟨p, 0xF0FF, b⟩ op = true ↔ op.toNat / 4096 * 4096 + op.toNat % 256 = b.toNat := by
  rw [OpcodeRow.selects, beq_iff_eq, ← BitVec.toNat_inj, BitVec.toNat_and, ← and_F0FF op.isLt]; rfl

/-- A row that fixes the whole word. -/
theorem selects_FFFF (p : String) (b op : Word) :
    OpcodeRow.selects ⟨p, 0xFFFF, b⟩ op = true ↔ op = b := by
  rw [OpcodeRow.selects, beq_iff_eq, show (0xFFFF : Word) = BitVec.allOnes 16 by rfl, BitVec.and_allOnes]

end Sys2Proof
end

