-- ==== Sys2Proof/Laws/Step.lean ====
section
/-! SUPPORT. The step: which event acts, what a `Step` event does in each run state, and that every instruction
answers a next state. -/

namespace Sys2Proof.Machine

/-- With an empty schedule the host issues `Step` (log 1). -/
theorem step_of_empty {s : State} (h : s.schedule = []) : step s = stepEvent s := by
  have ht : s.takeEvent = s := by unfold State.takeEvent; rw [h, List.tail_nil, ← h]
  simp only [step, State.nextEvent, h, List.headD_nil, ht, event]

/-- The head of the schedule is the event that acts. -/
theorem step_of_cons {s : State} {e : Event} {rest : List Event} (h : s.schedule = e :: rest) :
    step s = event e { s with schedule := rest } := by
  simp only [step, State.nextEvent, State.takeEvent, h, List.headD_cons, List.tail_cons]

theorem stepEvent_of_running {s : State} (h : s.run = .running) :
    stepEvent s = if s.pc.toNat + 1 < 4096
      then execWord (wordOf (s.byte s.pc.toNat) (s.byte (s.pc.toNat + 1))) s
      else .next (s.raise (.addressOverrun (max s.pc.toNat 4096))) := by
  unfold stepEvent
  simp only [h, fetch_eq]
  by_cases hp : s.pc.toNat + 1 < 4096
  · simp only [hp, if_true]
  · simp only [hp, if_false, finish_error]

theorem stepEvent_of_not_running {s : State} (h : s.run ≠ .running) : stepEvent s = .next s := by
  unfold stepEvent
  cases hr : s.run with
  | running => exact absurd hr h
  | waitingForKey x => rfl
  | faulted c => rfl

theorem execWord_of_ok {op : Word} {i : Instr} (h : decode op = .ok i) (s : State) :
    execWord op s = exec i s := by simp only [execWord, h]

theorem execWord_of_error {op : Word} {e : DecodeError} (h : decode op = .error e) (s : State) :
    execWord op s = execUnmapped op s := by simp only [execWord, h]

/-- The engine is faulted exactly when `RUN` records a cause. -/
theorem isFaulted_iff {s : State} : s.isFaulted = true ↔ ∃ c, s.run = .faulted c := by
  unfold State.isFaulted
  cases s.run <;> simp

theorem finish_answers_next (s : State) (r : Except Cause State) : ∃ t, finish s r = .next t := by
  cases r with
  | ok t => exact ⟨t, rfl⟩
  | error c => exact ⟨s.raise c, rfl⟩

/-- Every instruction answers a next state in every state: a fault of R180 is a state of the machine (R186). -/
theorem exec_answers_next (i : Instr) (s : State) : ∃ t, exec i s = .next t := by
  cases i with
  | ret => change ∃ t, execRet s = _; unfold execRet; split <;> exact finish_answers_next _ _
  | call nnn => change ∃ t, execCall nnn s = _; unfold execCall; split <;> exact finish_answers_next _ _
  | drw x y n =>
    change ∃ t, execDrw x y n s = _
    unfold execDrw
    split
    · exact finish_answers_next _ _
    · split <;> exact finish_answers_next _ _
  | ldB x => change ∃ t, execLdB x s = _; unfold execLdB; split <;> exact finish_answers_next _ _
  | storeRegs x =>
    change ∃ t, execStoreRegs x s = _; unfold execStoreRegs; split <;> exact finish_answers_next _ _
  | loadRegs x =>
    change ∃ t, execLoadRegs x s = _; unfold execLoadRegs; split <;> exact finish_answers_next _ _
  | _ => exact ⟨_, rfl⟩

end Sys2Proof.Machine
end

