-- ==== Sys2Proof/Laws/Exec.lean ====
section
/-! SUPPORT. What each of the six instructions that can fault does, as one equation or case split, so that no later
proof unfolds its meaning. Every other meaning is an equation by `rfl`. -/

namespace Sys2Proof.Machine

theorem exec_call_eq (s : State) (nnn : BitVec 12) :
    exec (.call nnn) s = if s.sp.toNat < s.cfg.stackLo then .next (s.raise .stackOverflow)
      else if s.sp.toNat + 1 < 4096 then
        .next { s with
          mem := Memory.writeList s.cfg.font s.mem s.sp.toNat [hi8 s.pc, lo8 s.pc]
          sp := s.sp - 2
          pc := addrImm nnn }
      else .next (s.raise (.addressOverrun (max s.sp.toNat 4096))) := by
  simp only [exec, execCall, push_eq]
  by_cases h : s.sp.toNat < s.cfg.stackLo
  · simp only [h, if_true, finish_error]
  · by_cases h1 : s.sp.toNat + 1 < 4096
    · simp only [h, h1, if_true, if_false, finish_ok, State.jump]
    · simp only [h, h1, if_false, finish_error]

theorem exec_ret_eq (s : State) :
    exec .ret s = if s.sp.toNat = s.cfg.stackHi - 2 then .next (s.raise .stackUnderflow)
      else if (s.sp + 2).toNat + 1 < 4096 then
        .next { s with
          sp := s.sp + 2
          pc := wordOf (s.byte (s.sp + 2).toNat) (s.byte ((s.sp + 2).toNat + 1)) + 2 }
      else .next (s.raise (.addressOverrun (max (s.sp + 2).toNat 4096))) := by
  simp only [exec, execRet, pop_eq]
  by_cases h : s.sp.toNat = s.cfg.stackHi - 2
  · simp only [h, if_true, finish_error]
  · by_cases h1 : (s.sp + 2).toNat + 1 < 4096
    · simp only [h, h1, if_true, if_false, finish_ok, State.jump]
    · simp only [h, h1, if_false, finish_error]

theorem exec_ldB_eq (s : State) (x : RegNum) :
    exec (.ldB x) s = if s.i.toNat + 3 ≤ 4096 then
        .next { s with
          mem := Memory.writeList s.cfg.font s.mem s.i.toNat (bcdDigits (s.reg x))
          pc := s.pc + 2 }
      else .next (s.raise (.addressOverrun (max s.i.toNat 4096))) := by
  simp only [exec, execLdB, State.indexAddr, writeBytes_eq, bcdDigits, List.length_cons, List.length_nil,
    reduceCtorEq, false_or, Nat.add_zero, Nat.zero_add, Nat.reduceAdd]
  by_cases h : s.i.toNat + 3 ≤ 4096
  · simp only [h, if_true, finish_ok, State.advance]
  · simp only [h, if_false, finish_error]

@[simp] theorem length_regsUpTo (s : State) (x : RegNum) : (s.regsUpTo x).length = x.val + 1 := by
  simp [State.regsUpTo]

/-- The `k`-th of the bytes that FX55 stores is `V[k]`. -/
theorem getD_regsUpTo (s : State) {x k : RegNum} (h : k ≤ x) : (s.regsUpTo x).getD k.val 0 = s.reg k := by
  have hk : k.val ≤ x.val := h
  simp only [State.regsUpTo, State.reg, List.getD_eq_getElem?_getD]
  rw [List.getElem?_take_of_lt (by omega)]
  simp

theorem exec_storeRegs_eq (s : State) (x : RegNum) :
    exec (.storeRegs x) s = if s.i.toNat + x.val < 4096 then
        .next { s with
          mem := Memory.writeList s.cfg.font s.mem s.i.toNat (s.regsUpTo x)
          i := BitVec.ofNat 16 (s.i.toNat + (x.val + 1))
          pc := s.pc + 2 }
      else .next (s.raise (.addressOverrun (max s.i.toNat 4096))) := by
  have hne : s.regsUpTo x ≠ [] := fun h => by
    have := length_regsUpTo s x; rw [h] at this; simp at this
  simp only [exec, execStoreRegs, State.indexAddr, writeBytes_eq, hne, length_regsUpTo, false_or, Nat.add_zero]
  by_cases h : s.i.toNat + x.val < 4096
  · rw [if_pos (by omega)]
    simp only [h, if_true, finish_ok, State.advance, State.setI]
  · rw [if_neg (by omega)]
    simp only [h, if_false, finish_error]

theorem exec_loadRegs_eq (s : State) (x : RegNum) :
    exec (.loadRegs x) s = if s.i.toNat + x.val < 4096 then
        .next ((s.setRegs ((List.range (x.val + 1)).map (fun k => s.byte (s.i.toNat + k)))).setI
          (s.i.toNat + (x.val + 1))).advance
      else .next (s.raise (.addressOverrun (max s.i.toNat 4096))) := by
  simp only [exec, execLoadRegs, State.indexAddr, readBytes_eq, Nat.add_zero, Nat.succ_ne_zero, false_or]
  by_cases h : s.i.toNat + x.val < 4096
  · rw [if_pos (by omega)]
    simp only [h, if_true, finish_ok]
  · rw [if_neg (by omega)]
    simp only [h, if_false, finish_error]

/-- The `k`-th of the bytes that FX65 loads, for a register of its range and for one above it. -/
theorem getD_loaded (s : State) (x k : RegNum) (d : Byte) :
    ((List.range (x.val + 1)).map (fun j => s.byte (s.i.toNat + j))).getD k.val d =
      if k ≤ x then s.byte (s.i.toNat + k.val) else d := by
  by_cases h : k ≤ x
  · have hk : k.val < x.val + 1 := Nat.lt_succ_of_le h
    simp [List.getD_eq_getElem?_getD, h]
  · have hk : ¬k.val < x.val + 1 := fun hk => h (Nat.le_of_lt_succ hk)
    simp only [List.getD_eq_getElem?_getD, h, if_false]
    rw [List.getElem?_eq_none (by simp; omega)]
    rfl

/-- The rows of a sprite that lie in memory have a 1-bit over the pixels `spriteCovers` says. -/
theorem rowsCover_sprite (s : State) (x y : RegNum) (n : Fin 16) (p : Nat) :
    rowsCover ((List.range n.val).map (fun r => s.byte (s.i.toNat + r)))
      (pixelOffset (s.reg x) (s.reg y)) p = spriteCovers s x y n p := by
  have hb : ∀ r, pixelOffset (s.reg x) (s.reg y) + 64 * r =
      (s.reg x).toNat + 64 * ((s.reg y).toNat + r) := fun r => by
    simp only [pixelOffset, Config.fbWidth]; omega
  rw [rowsCover_eq_any, spriteCovers, List.length_map, List.length_range, Bool.eq_iff_iff]
  simp only [List.any_eq_true, List.mem_range, hb]
  refine exists_congr fun r => and_congr_right fun hr => ?_
  rw [show ((List.range n.val).map (fun r => s.byte (s.i.toNat + r))).getD r 0 = s.byte (s.i.toNat + r) by
    simp [List.getD_eq_getElem?_getD, hr]]

/-- The first sprite address outside memory. -/
theorem find_spriteBytes (a n : Nat) :
    ((List.range n).map (fun r => a + r)).find? (fun b => 4096 ≤ b) =
      if n = 0 ∨ a + n ≤ 4096 then none else some (max a 4096) := by
  induction n generalizing a with
  | zero => simp
  | succ n ih =>
    have hm : (List.range (n + 1)).map (fun r => a + r) = a :: (List.range n).map (fun r => (a + 1) + r) := by
      simp only [List.range_succ_eq_map, List.map_cons, List.map_map, Nat.add_zero, List.cons.injEq, true_and]
      refine List.map_congr_left fun r _ => ?_
      simp only [Function.comp, Nat.succ_eq_add_one]; omega
    rw [hm, List.find?_cons]
    by_cases h : 4096 ≤ a
    · rw [if_neg (by omega), show max a 4096 = a by omega]
      simp [h]
    · simp only [h, decide_false, ih]
      by_cases h1 : a + (n + 1) ≤ 4096
      · rw [if_pos (by omega), if_pos (by omega)]
      · rw [if_neg (by omega), if_neg (by omega), show max (a + 1) 4096 = max a 4096 by omega]

/-- DXYN faults with the first address it accesses that is outside memory, or draws the whole sprite. -/
theorem exec_drw_cases (s : State) (x y : RegNum) (n : Fin 16) :
    match (drawAccesses s x y n).find? (fun a => 4096 ≤ a) with
    | some a => exec (.drw x y n) s = .next (s.raise (.addressOverrun a))
    | none => ∃ u hit, exec (.drw x y n) s = .next (u.setReg flagReg (flagOf hit)).advance ∧
        RowDrawn s u hit (spriteCovers s x y n) := by
  have he : exec (.drw x y n) s = execDrw x y n s := rfl
  have hb : (s.reg x).toNat + 64 * (s.reg y).toNat = pixelOffset (s.reg x) (s.reg y) := rfl
  rw [drawAccesses, List.find?_append, find_spriteBytes, he, execDrw]
  simp only [State.indexAddr, readBytes_eq, Nat.add_zero]
  by_cases h : n.val = 0 ∨ s.i.toNat + n.val ≤ 4096
  · rw [if_pos h, Option.none_or, hb]
    simp only [h, if_true]
    have hr := drawRows_cases ((List.range n.val).map (fun r => s.byte (s.i.toNat + r))) s
      (pixelOffset (s.reg x) (s.reg y))
    rw [List.length_map, List.length_range] at hr
    cases hf : (rowsAccesses (pixelOffset (s.reg x) (s.reg y)) n.val).find? (fun a => 4096 ≤ a) with
    | some a =>
      rw [hf] at hr
      simp only at hr
      simp only [hr, finish_error]
    | none =>
      rw [hf] at hr
      obtain ⟨u, hit, hd, hu⟩ := hr
      refine ⟨u, hit, by simp only [hd, finish_ok], ?_⟩
      rw [show spriteCovers s x y n = rowsCover ((List.range n.val).map (fun r => s.byte (s.i.toNat + r)))
        (pixelOffset (s.reg x) (s.reg y)) from funext fun p => (rowsCover_sprite s x y n p).symm]
      exact hu
  · rw [if_neg h, Option.some_or]
    simp only [h, if_false, finish_error]

/-- A 1-bit of a row lies over a byte that the row accesses. -/
theorem mem_rowAccesses_of_rowCovers {row : Byte} {b p : Nat} (h : rowCovers row b p = true) :
    3840 + p / 8 ∈ rowAccesses b := by
  simp only [rowCovers, Bool.and_eq_true, decide_eq_true_eq] at h
  obtain ⟨⟨hb, hp⟩, -⟩ := h
  unfold rowAccesses
  split
  · rw [List.mem_singleton]; omega
  · rw [List.mem_cons, List.mem_singleton]; omega

/-- A 1-bit of a sprite lies over a byte that DXYN accesses. -/
theorem mem_rowsAccesses_of_spriteCovers {s : State} {x y : RegNum} {n : Fin 16} {p : Nat}
    (h : spriteCovers s x y n p = true) :
    3840 + p / 8 ∈ rowsAccesses ((s.reg x).toNat + 64 * (s.reg y).toNat) n.val := by
  simp only [spriteCovers, List.any_eq_true] at h
  obtain ⟨r, hr, hc⟩ := h
  rw [Nat.mul_add, ← Nat.add_assoc] at hc
  exact List.mem_flatMap.2 ⟨r, hr, mem_rowAccesses_of_rowCovers hc⟩

/-- A framebuffer byte is its eight pixels. -/
theorem byte_eq_of_pixel_eq {s t : State} {k : Nat} (h : ∀ p, p / 8 = k → t.pixel p = s.pixel p) :
    t.byte (3840 + k) = s.byte (3840 + k) := by
  apply BitVec.eq_of_getLsbD_eq
  intro j hj
  have := h (8 * k + (7 - j)) (by omega)
  simp only [State.pixel, Config.fbBase] at this
  rwa [show (8 * k + (7 - j)) / 8 = k by omega, show 7 - (8 * k + (7 - j)) % 8 = j by omega] at this

/-- DXYN changes no byte but the one or two of each row (R60). -/
theorem exec_drw_outside {s t : State} {x y : RegNum} {n : Fin 16} (h : exec (.drw x y n) s = .next t) {a : Nat}
    (ha : a ∉ rowsAccesses ((s.reg x).toNat + 64 * (s.reg y).toNat) n.val) : t.byte a = s.byte a := by
  have hc := exec_drw_cases s x y n
  split at hc
  · rw [h, Host.Outcome.next.injEq] at hc
    rw [hc, State.byte_raise]
  · obtain ⟨u, hit, he, hu⟩ := hc
    rw [h, Host.Outcome.next.injEq] at he
    rw [he, State.byte_advance, State.byte_setReg]
    by_cases hf : a < 3840
    · exact hu.outside a (.inl hf)
    · obtain ⟨k, rfl⟩ : ∃ k, a = 3840 + k := ⟨a - 3840, by omega⟩
      refine byte_eq_of_pixel_eq fun p hp => ?_
      have : spriteCovers s x y n p = false := by
        by_contra hs
        exact ha (hp ▸ mem_rowsAccesses_of_spriteCovers (Bool.not_eq_false _ ▸ hs))
      rw [hu.pixel, this, Bool.xor_false]

theorem exec_cls_eq (s : State) : exec .cls s = .next s.clearFramebuffer.advance := by simp only [exec, execCls]

/-- Where an instruction leaves `PC`: after itself, after the next one, nowhere else because it faulted, or at the
target of a control transfer (R27). -/
theorem exec_pc_cases {i : Instr} {s t : State} (h : exec i s = .next t) :
    t.pc = s.pc + 2 ∨ t.pc = s.pc + 4 ∨ (∃ c, t = s.raise c) ∨
    (∃ nnn, i = .jp nnn ∧ t = s.jump (addrImm nnn)) ∨
    (∃ nnn, i = .jpV0 nnn ∧ t = s.jump (offsetTarget nnn (s.reg 0))) ∨
    (∃ nnn, i = .call nnn ∧ t.pc = addrImm nnn ∧ t.sp = s.sp - 2) ∨ i = .ret ∧ t.sp = s.sp + 2 := by
  cases i with
  | cls =>
    rw [exec_cls_eq, Host.Outcome.next.injEq] at h
    exact .inl (by rw [← h, State.pc_advance, State.pc_clearFramebuffer])
  | ret =>
    rw [exec_ret_eq] at h
    split at h
    · cases h; exact .inr (.inr (.inl ⟨_, rfl⟩))
    · split at h <;> cases h
      · exact .inr (.inr (.inr (.inr (.inr (.inr ⟨rfl, rfl⟩)))))
      · exact .inr (.inr (.inl ⟨_, rfl⟩))
  | call nnn =>
    rw [exec_call_eq] at h
    split at h
    · cases h; exact .inr (.inr (.inl ⟨_, rfl⟩))
    · split at h <;> cases h
      · exact .inr (.inr (.inr (.inr (.inr (.inl ⟨_, rfl, rfl, rfl⟩)))))
      · exact .inr (.inr (.inl ⟨_, rfl⟩))
  | drw x y n =>
    have hc := exec_drw_cases s x y n
    split at hc
    · rw [hc] at h; cases h; exact .inr (.inr (.inl ⟨_, rfl⟩))
    · obtain ⟨u, hit, he, hu⟩ := hc
      rw [he] at h; cases h
      exact .inl (by rw [hu.rest]; rfl)
  | ldB x =>
    rw [exec_ldB_eq] at h
    split at h <;> cases h
    · exact .inl rfl
    · exact .inr (.inr (.inl ⟨_, rfl⟩))
  | storeRegs x =>
    rw [exec_storeRegs_eq] at h
    split at h <;> cases h
    · exact .inl rfl
    · exact .inr (.inr (.inl ⟨_, rfl⟩))
  | loadRegs x =>
    rw [exec_loadRegs_eq] at h
    split at h <;> simp only [Host.Outcome.next.injEq] at h <;> subst h
    · exact .inl (by simp only [State.pc_advance, State.pc_setI, State.pc_setRegs])
    · exact .inr (.inr (.inl ⟨_, rfl⟩))
  | jp nnn => cases h; exact .inr (.inr (.inr (.inl ⟨_, rfl, rfl⟩)))
  | jpV0 nnn => cases h; exact .inr (.inr (.inr (.inr (.inl ⟨_, rfl, rfl⟩))))
  | seImm | sneImm | seReg | sneReg | skp | sknp =>
    simp only [exec, execSeImm, execSneImm, execSeReg, execSneReg, execSkp, execSknp, skipIf_eq,
      Host.Outcome.next.injEq] at h
    rw [← h]
    simp only
    split <;> simp
  | _ => cases h; exact .inl rfl

end Sys2Proof.Machine
end

