-- ==== Sys2Proof/Laws/EndOfRun.lean ====
section
/-! SUPPORT. The end-of-run observation: what each of its values says of the state. -/

namespace Sys2Proof.Machine

theorem State.jumpsToItself_iff (s : State) :
    s.jumpsToItself = true ↔ s.pc.toNat + 1 < 4096 ∧ ∃ nnn,
      decode (wordOf (s.byte s.pc.toNat) (s.byte (s.pc.toNat + 1))) = .ok (.jp nnn) ∧ addrImm nnn = s.pc ∨
      decode (wordOf (s.byte s.pc.toNat) (s.byte (s.pc.toNat + 1))) = .ok (.jpV0 nnn) ∧
        offsetTarget nnn (s.reg 0) = s.pc := by
  unfold State.jumpsToItself
  rw [fetch_eq]
  by_cases hp : s.pc.toNat + 1 < 4096
  · simp only [hp, if_true, true_and]
    cases hd : decode (wordOf (s.byte s.pc.toNat) (s.byte (s.pc.toNat + 1))) with
    | error e => simp
    | ok i => cases i <;> simp
  · simp [hp]

theorem State.runEnd_of_running {s : State} (h : s.run = .running) :
    s.runEnd = if s.jumpsToItself then some (.selfJump s.pc.toNat) else none := by simp only [State.runEnd, h]

theorem State.runEnd_of_waiting {s : State} {x : RegNum} (h : s.run = .waitingForKey x) :
    s.runEnd = some (.keyWait x) := by simp only [State.runEnd, h]

theorem State.runEnd_of_faulted {s : State} {c : Cause} (h : s.run = .faulted c) :
    s.runEnd = some (.fault c) := by simp only [State.runEnd, h]

end Sys2Proof.Machine
end

