-- ==== Sys2Proof/Laws/PerInstr.lean ====
section
/-! SUPPORT. Statements about every instruction as syntax, one lemma a constructor: the word of an instruction
selects the instruction's own row of the opcode map (spec/30_encoding.md rules R85, R90). -/

namespace Sys2Proof.Laws.EncodingSelectsRow

/-- The encoder's word has every fixed digit of the instruction's pattern. -/
def Statement (i : Instr) : Prop := i.row.selects (encode i) = true

theorem cls : Statement .cls := (selects_FFFF _ _ _).2 rfl

theorem ret : Statement .ret := (selects_FFFF _ _ _).2 rfl

theorem jp (nnn : BitVec 12) : Statement (.jp nnn) := by
  refine (selects_F000 _ _ _).2 ?_
  rw [encode, wordA_toNat (by decide)]
  have := nnn.isLt
  simp only [BitVec.reduceToNat]; omega

theorem call (nnn : BitVec 12) : Statement (.call nnn) := by
  refine (selects_F000 _ _ _).2 ?_
  rw [encode, wordA_toNat (by decide)]
  have := nnn.isLt
  simp only [BitVec.reduceToNat]; omega

theorem seImm (x : RegNum) (nn : Byte) : Statement (.seImm x nn) := by
  refine (selects_F000 _ _ _).2 ?_
  rw [encode, wordXI_toNat (by decide)]
  have := x.isLt; have := nn.isLt
  simp only [BitVec.reduceToNat]; omega

theorem sneImm (x : RegNum) (nn : Byte) : Statement (.sneImm x nn) := by
  refine (selects_F000 _ _ _).2 ?_
  rw [encode, wordXI_toNat (by decide)]
  have := x.isLt; have := nn.isLt
  simp only [BitVec.reduceToNat]; omega

theorem seReg (x y : RegNum) : Statement (.seReg x y) := by
  refine (selects_F00F _ _ _).2 ?_
  rw [encode, wordXY_toNat (by decide) (by decide)]
  have := x.isLt; have := y.isLt
  simp only [BitVec.reduceToNat]; omega

theorem ldImm (x : RegNum) (nn : Byte) : Statement (.ldImm x nn) := by
  refine (selects_F000 _ _ _).2 ?_
  rw [encode, wordXI_toNat (by decide)]
  have := x.isLt; have := nn.isLt
  simp only [BitVec.reduceToNat]; omega

theorem addImm (x : RegNum) (nn : Byte) : Statement (.addImm x nn) := by
  refine (selects_F000 _ _ _).2 ?_
  rw [encode, wordXI_toNat (by decide)]
  have := x.isLt; have := nn.isLt
  simp only [BitVec.reduceToNat]; omega

theorem ldReg (x y : RegNum) : Statement (.ldReg x y) := by
  refine (selects_F00F _ _ _).2 ?_
  rw [encode, wordXY_toNat (by decide) (by decide)]
  have := x.isLt; have := y.isLt
  simp only [BitVec.reduceToNat]; omega

theorem orReg (x y : RegNum) : Statement (.orReg x y) := by
  refine (selects_F00F _ _ _).2 ?_
  rw [encode, wordXY_toNat (by decide) (by decide)]
  have := x.isLt; have := y.isLt
  simp only [BitVec.reduceToNat]; omega

theorem andReg (x y : RegNum) : Statement (.andReg x y) := by
  refine (selects_F00F _ _ _).2 ?_
  rw [encode, wordXY_toNat (by decide) (by decide)]
  have := x.isLt; have := y.isLt
  simp only [BitVec.reduceToNat]; omega

theorem xorReg (x y : RegNum) : Statement (.xorReg x y) := by
  refine (selects_F00F _ _ _).2 ?_
  rw [encode, wordXY_toNat (by decide) (by decide)]
  have := x.isLt; have := y.isLt
  simp only [BitVec.reduceToNat]; omega

theorem addReg (x y : RegNum) : Statement (.addReg x y) := by
  refine (selects_F00F _ _ _).2 ?_
  rw [encode, wordXY_toNat (by decide) (by decide)]
  have := x.isLt; have := y.isLt
  simp only [BitVec.reduceToNat]; omega

theorem subReg (x y : RegNum) : Statement (.subReg x y) := by
  refine (selects_F00F _ _ _).2 ?_
  rw [encode, wordXY_toNat (by decide) (by decide)]
  have := x.isLt; have := y.isLt
  simp only [BitVec.reduceToNat]; omega

theorem shr (x y : RegNum) : Statement (.shr x y) := by
  refine (selects_F00F _ _ _).2 ?_
  rw [encode, wordXY_toNat (by decide) (by decide)]
  have := x.isLt; have := y.isLt
  simp only [BitVec.reduceToNat]; omega

theorem subnReg (x y : RegNum) : Statement (.subnReg x y) := by
  refine (selects_F00F _ _ _).2 ?_
  rw [encode, wordXY_toNat (by decide) (by decide)]
  have := x.isLt; have := y.isLt
  simp only [BitVec.reduceToNat]; omega

theorem shl (x y : RegNum) : Statement (.shl x y) := by
  refine (selects_F00F _ _ _).2 ?_
  rw [encode, wordXY_toNat (by decide) (by decide)]
  have := x.isLt; have := y.isLt
  simp only [BitVec.reduceToNat]; omega

theorem sneReg (x y : RegNum) : Statement (.sneReg x y) := by
  refine (selects_F00F _ _ _).2 ?_
  rw [encode, wordXY_toNat (by decide) (by decide)]
  have := x.isLt; have := y.isLt
  simp only [BitVec.reduceToNat]; omega

theorem ldI (nnn : BitVec 12) : Statement (.ldI nnn) := by
  refine (selects_F000 _ _ _).2 ?_
  rw [encode, wordA_toNat (by decide)]
  have := nnn.isLt
  simp only [BitVec.reduceToNat]; omega

theorem jpV0 (nnn : BitVec 12) : Statement (.jpV0 nnn) := by
  refine (selects_F000 _ _ _).2 ?_
  rw [encode, wordA_toNat (by decide)]
  have := nnn.isLt
  simp only [BitVec.reduceToNat]; omega

theorem rnd (x : RegNum) (nn : Byte) : Statement (.rnd x nn) := by
  refine (selects_F000 _ _ _).2 ?_
  rw [encode, wordXI_toNat (by decide)]
  have := x.isLt; have := nn.isLt
  simp only [BitVec.reduceToNat]; omega

theorem drw (x y : RegNum) (n : Fin 16) : Statement (.drw x y n) := by
  refine (selects_F000 _ _ _).2 ?_
  rw [encode, wordXY_toNat (by decide) n.isLt]
  have := x.isLt; have := y.isLt; have := n.isLt
  simp only [BitVec.reduceToNat]; omega

theorem skp (x : RegNum) : Statement (.skp x) := by
  refine (selects_F0FF _ _ _).2 ?_
  rw [encode, wordXS_toNat (by decide) (by decide)]
  have := x.isLt
  simp only [BitVec.reduceToNat]; omega

theorem sknp (x : RegNum) : Statement (.sknp x) := by
  refine (selects_F0FF _ _ _).2 ?_
  rw [encode, wordXS_toNat (by decide) (by decide)]
  have := x.isLt
  simp only [BitVec.reduceToNat]; omega

theorem ldVxDt (x : RegNum) : Statement (.ldVxDt x) := by
  refine (selects_F0FF _ _ _).2 ?_
  rw [encode, wordXS_toNat (by decide) (by decide)]
  have := x.isLt
  simp only [BitVec.reduceToNat]; omega

theorem ldVxK (x : RegNum) : Statement (.ldVxK x) := by
  refine (selects_F0FF _ _ _).2 ?_
  rw [encode, wordXS_toNat (by decide) (by decide)]
  have := x.isLt
  simp only [BitVec.reduceToNat]; omega

theorem ldDtVx (x : RegNum) : Statement (.ldDtVx x) := by
  refine (selects_F0FF _ _ _).2 ?_
  rw [encode, wordXS_toNat (by decide) (by decide)]
  have := x.isLt
  simp only [BitVec.reduceToNat]; omega

theorem ldStVx (x : RegNum) : Statement (.ldStVx x) := by
  refine (selects_F0FF _ _ _).2 ?_
  rw [encode, wordXS_toNat (by decide) (by decide)]
  have := x.isLt
  simp only [BitVec.reduceToNat]; omega

theorem addI (x : RegNum) : Statement (.addI x) := by
  refine (selects_F0FF _ _ _).2 ?_
  rw [encode, wordXS_toNat (by decide) (by decide)]
  have := x.isLt
  simp only [BitVec.reduceToNat]; omega

theorem ldF (x : RegNum) : Statement (.ldF x) := by
  refine (selects_F0FF _ _ _).2 ?_
  rw [encode, wordXS_toNat (by decide) (by decide)]
  have := x.isLt
  simp only [BitVec.reduceToNat]; omega

theorem ldB (x : RegNum) : Statement (.ldB x) := by
  refine (selects_F0FF _ _ _).2 ?_
  rw [encode, wordXS_toNat (by decide) (by decide)]
  have := x.isLt
  simp only [BitVec.reduceToNat]; omega

theorem storeRegs (x : RegNum) : Statement (.storeRegs x) := by
  refine (selects_F0FF _ _ _).2 ?_
  rw [encode, wordXS_toNat (by decide) (by decide)]
  have := x.isLt
  simp only [BitVec.reduceToNat]; omega

theorem loadRegs (x : RegNum) : Statement (.loadRegs x) := by
  refine (selects_F0FF _ _ _).2 ?_
  rw [encode, wordXS_toNat (by decide) (by decide)]
  have := x.isLt
  simp only [BitVec.reduceToNat]; omega

end Sys2Proof.Laws.EncodingSelectsRow
end

