-- ==== Sys2Proof/Tests/Slice0.lean ====
section
/-! SUPPORT. The model's own tests: the decoder on words written out from the encodings of spec/30_encoding.md, the
ill-formed terms that the checks refuse, one step of each instruction on the vectors of spec/95_test_vectors.md, and
for each obligation with hypotheses a state and operands that meet them all. -/

set_option Elab.async false

namespace Sys2Proof.Tests

open Sys2Proof Sys2Proof.Machine

/-! ## Helpers -/

/-- The outcome is a next state of which `p` holds. -/
def answers (o : Host.Outcome State Fault Refusal) (p : State → Bool) : Bool :=
  match o with
  | .next t => p t
  | .fault _ => false
  | .refused _ => false

/-- The next state of an outcome, or the state given. -/
def result (o : Host.Outcome State Fault Refusal) (s : State) : State :=
  match o with
  | .next t => t
  | .fault _ => s
  | .refused _ => s

theorem exec_result (i : Instr) (s : State) : exec i s = .next (result (exec i s) s) := by
  obtain ⟨t, h⟩ := exec_answers_next i s
  rw [h]; rfl

/-- The state with bytes placed from an address on. -/
def put (a : Nat) (bs : List Byte) (s : State) : State :=
  { s with mem := Memory.writeList s.cfg.font s.mem a bs }

/-- The state with general registers set. -/
def regs (l : List (RegNum × Byte)) (s : State) : State := l.foldl (fun t p => t.setReg p.1 p.2) s

/-- The reset state with one instruction word at 0x0200 (the start state of spec/95_test_vectors.md). -/
def at200 (op : Word) : State := put 512 [hi8 op, lo8 op] State.reset

/-- The bytes from an address on. -/
def bytes (t : State) (a n : Nat) : List Byte := (List.range n).map (fun k => t.byte (a + k))

/-- A state that differs from another in `RUN` alone, which records the cause. -/
def faultedAs (s : State) (c : Cause) (t : State) : Bool := t == s.raise c

/-! ## Decoding words written out bit by bit (R81, R82, R84) -/

/-- 00E0. -/
theorem test_decode_cls : decode 0b0000000011100000 = .ok (.cls) := rfl
/-- 00EE. -/
theorem test_decode_ret : decode 0b0000000011101110 = .ok (.ret) := rfl
/-- 1NNN, NNN = 0x300. -/
theorem test_decode_jp : decode 0b0001001100000000 = .ok (.jp 0x300) := rfl
/-- 2NNN, NNN = 0xABC. -/
theorem test_decode_call : decode 0b0010101010111100 = .ok (.call 0xABC) := rfl
/-- 3XNN, X = 3, NN = 0x2A. -/
theorem test_decode_seImm : decode 0b0011001100101010 = .ok (.seImm 3 0x2A) := rfl
/-- 4XNN, X = 3, NN = 0x2B. -/
theorem test_decode_sneImm : decode 0b0100001100101011 = .ok (.sneImm 3 0x2B) := rfl
/-- 5XY0, X = 1, Y = 2. -/
theorem test_decode_seReg : decode 0b0101000100100000 = .ok (.seReg 1 2) := rfl
/-- 6XNN, X = 10, NN = 0xFF. -/
theorem test_decode_ldImm : decode 0b0110101011111111 = .ok (.ldImm 10 0xFF) := rfl
/-- 7XNN, X = 3, NN = 2. -/
theorem test_decode_addImm : decode 0b0111001100000010 = .ok (.addImm 3 0x02) := rfl
/-- 8XY0. -/
theorem test_decode_ldReg : decode 0b1000000100100000 = .ok (.ldReg 1 2) := rfl
/-- 8XY1. -/
theorem test_decode_orReg : decode 0b1000000100100001 = .ok (.orReg 1 2) := rfl
/-- 8XY2. -/
theorem test_decode_andReg : decode 0b1000000100100010 = .ok (.andReg 1 2) := rfl
/-- 8XY3. -/
theorem test_decode_xorReg : decode 0b1000000100100011 = .ok (.xorReg 1 2) := rfl
/-- 8XY4, X = 15. -/
theorem test_decode_addReg : decode 0b1000111100010100 = .ok (.addReg 15 1) := rfl
/-- 8XY5, Y = 15. -/
theorem test_decode_subReg : decode 0b1000000111110101 = .ok (.subReg 1 15) := rfl
/-- 8XY6. -/
theorem test_decode_shr : decode 0b1000000110100110 = .ok (.shr 1 10) := rfl
/-- 8XY7. -/
theorem test_decode_subnReg : decode 0b1000000100100111 = .ok (.subnReg 1 2) := rfl
/-- 8XYE. -/
theorem test_decode_shl : decode 0b1000000100101110 = .ok (.shl 1 2) := rfl
/-- 9XY0. -/
theorem test_decode_sneReg : decode 0b1001000100100000 = .ok (.sneReg 1 2) := rfl
/-- ANNN, NNN = 0xFFF. -/
theorem test_decode_ldI : decode 0b1010111111111111 = .ok (.ldI 0xFFF) := rfl
/-- BNNN, NNN = 0x2FF. -/
theorem test_decode_jpV0 : decode 0b1011001011111111 = .ok (.jpV0 0x2FF) := rfl
/-- CXNN. -/
theorem test_decode_rnd : decode 0b1100000100001111 = .ok (.rnd 1 0x0F) := rfl
/-- DXYN. -/
theorem test_decode_drw : decode 0b1101000100100101 = .ok (.drw 1 2 5) := rfl
/-- EX9E. -/
theorem test_decode_skp : decode 0b1110000110011110 = .ok (.skp 1) := rfl
/-- EXA1. -/
theorem test_decode_sknp : decode 0b1110000110100001 = .ok (.sknp 1) := rfl
/-- FX07. -/
theorem test_decode_ldVxDt : decode 0b1111001100000111 = .ok (.ldVxDt 3) := rfl
/-- FX0A. -/
theorem test_decode_ldVxK : decode 0b1111000100001010 = .ok (.ldVxK 1) := rfl
/-- FX15. -/
theorem test_decode_ldDtVx : decode 0b1111111100010101 = .ok (.ldDtVx 15) := rfl
/-- FX18. -/
theorem test_decode_ldStVx : decode 0b1111000100011000 = .ok (.ldStVx 1) := rfl
/-- FX1E. -/
theorem test_decode_addI : decode 0b1111000100011110 = .ok (.addI 1) := rfl
/-- FX29. -/
theorem test_decode_ldF : decode 0b1111000100101001 = .ok (.ldF 1) := rfl
/-- FX33. -/
theorem test_decode_ldB : decode 0b1111000100110011 = .ok (.ldB 1) := rfl
/-- FX55. -/
theorem test_decode_storeRegs : decode 0b1111001001010101 = .ok (.storeRegs 2) := rfl
/-- FX65. -/
theorem test_decode_loadRegs : decode 0b1111001001100101 = .ok (.loadRegs 2) := rfl

/-! ## What the checks refuse -/

/-- R86, T137 to T143: one unmapped word of each family that has any; the opcode map and the decoder both refuse
it. -/
theorem test_wordMapped_refuses_unmapped :
    ([0x0000, 0x01E0, 0x5121, 0x9125, 0x8128, 0xE19F, 0xF1FF] : List Word).all
      (fun op => !wordMapped op && decide (decodeTableWord 16 op.toNat = none)) = true := by decide +kernel

theorem test_decode_names_the_unmapped_word : decode 0x5121 = .error (.unmapped 0x5121) := rfl

theorem test_decode_refuses_one_byte : decodeBytes [0x00] = .error (.truncated 1) := rfl

/-- R58, each constraint broken by itself. -/
theorem test_config_refuses_stack_in_font : ¬({ defaultConfig with stackLo := 78 } : Config).wf := by decide
theorem test_config_refuses_empty_stack : ¬({ defaultConfig with stackLo := 512 } : Config).wf := by decide
theorem test_config_refuses_stack_in_program : ¬({ defaultConfig with stackHi := 514 } : Config).wf := by decide
theorem test_config_refuses_odd_low_end : ¬({ defaultConfig with stackLo := 481 } : Config).wf := by decide
theorem test_config_refuses_odd_high_end : ¬({ defaultConfig with stackHi := 511 } : Config).wf := by decide
theorem test_config_accepts_default : defaultConfig.wf := by decide

/-- R201: the largest image and the smallest that is too large (T148, T149). -/
theorem test_image_sizes :
    imageFits (List.replicate 3328 0) ∧ ¬imageFits (List.replicate 3329 0) := by
  simp only [imageFits, List.length_replicate]; decide

theorem test_reset_memory_wf : Memory.wf State.reset.cfg.font State.reset.mem := by decide

/-- The canonical form refuses a cell that reads as it would unlisted, and addresses out of order. -/
theorem test_memory_wf_refuses :
    ¬Memory.wf defaultFont [(512, 0)] ∧ ¬Memory.wf defaultFont [(0, 0xF0)] ∧
    ¬Memory.wf defaultFont [(513, 1), (512, 1)] ∧ ¬Memory.wf defaultFont [(4096, 1)] := by decide +kernel

/-- Storing what an unlisted cell reads as removes the entry. -/
theorem test_write_keeps_canonical_form :
    Memory.write defaultFont (Memory.write defaultFont [] 0x300 7) 0x300 0 = [] := by decide +kernel

/-- The host's two questions, on one word: the decoder's answer and the first step after reset. -/
theorem test_table_word : decodeTableWord 16 0x6AFF = some (.ldImm 10 0xFF) := by decide +kernel

theorem test_withFetchWord_runs_the_word :
    answers (step (State.reset.withFetchWord 16 0x6AFF)) (fun t => t.reg 10 == 0xFF && t.pc == 0x202) = true := by
  decide +kernel

/-! ## One step of each instruction (spec/95_test_vectors.md) -/

/-- T85. -/
theorem test_cls :
    answers (step (regs [(15, 1)] (put 4095 [0xFF] (put 3840 [0xFF] (put 3839 [1] (at200 0x00E0))))))
      (fun t => bytes t 3840 256 == List.replicate 256 0 && t.byte 3839 == 1 && t.reg 15 == 1) = true := by decide +kernel
/-- T8. -/
theorem test_ret :
    answers (step ({ put 510 [0x02, 0x04] (at200 0x00EE) with sp := 508 }))
      (fun t => t.sp == 510 && t.pc == 0x206 && bytes t 510 2 == [2, 4]) = true := by decide +kernel
/-- T10. -/
theorem test_ret_wraps :
    answers (step ({ put 510 [0xFF, 0xFF] (at200 0x00EE) with sp := 508 }))
      (fun t => t.pc == 1) = true := by decide +kernel
/-- T4. -/
theorem test_jp :
    answers (step (at200 0x1203))
      (fun t => t.pc == 0x203) = true := by decide +kernel
/-- T5. -/
theorem test_call :
    answers (step (at200 0x2300))
      (fun t => bytes t 510 2 == [2, 0] && t.sp == 508 && t.pc == 0x300) = true := by decide +kernel
/-- T7. -/
theorem test_call_full :
    answers (step ({ at200 0x2300 with sp := 478 }))
      (fun t => faultedAs ({ at200 0x2300 with sp := 478 }) .stackOverflow t) = true := by decide +kernel
/-- T14. -/
theorem test_seImm_taken :
    answers (step (regs [(3, 0x2A)] (at200 0x332A)))
      (fun t => t.pc == 0x204) = true := by decide +kernel
/-- T15. -/
theorem test_seImm_not_taken :
    answers (step (regs [(3, 0x2A)] (at200 0x332B)))
      (fun t => t.pc == 0x202) = true := by decide +kernel
/-- T17. -/
theorem test_sneImm_taken :
    answers (step (regs [(3, 0x2A)] (at200 0x432B)))
      (fun t => t.pc == 0x204) = true := by decide +kernel
/-- T19. -/
theorem test_seReg_not_taken :
    answers (step (regs [(1, 7), (2, 8)] (at200 0x5120)))
      (fun t => t.pc == 0x202) = true := by decide +kernel
/-- T21. -/
theorem test_sneReg_taken :
    answers (step (regs [(1, 7), (2, 8)] (at200 0x9120)))
      (fun t => t.pc == 0x204) = true := by decide +kernel
/-- T28. -/
theorem test_ldImm_flag :
    answers (step (regs [(15, 1)] (at200 0x6F00)))
      (fun t => t.reg 15 == 0) = true := by decide +kernel
/-- T29. -/
theorem test_addImm :
    answers (step (regs [(3, 0xFF)] (at200 0x7302)))
      (fun t => t.reg 3 == 1 && t.reg 15 == 0) = true := by decide +kernel
/-- T32. -/
theorem test_ldReg :
    answers (step (regs [(1, 0x11), (2, 0x22)] (at200 0x8120)))
      (fun t => t.reg 1 == 0x22 && t.reg 2 == 0x22) = true := by decide +kernel
/-- T33. -/
theorem test_orReg :
    answers (step (regs [(1, 0x50), (2, 0x05), (15, 1)] (at200 0x8121)))
      (fun t => t.reg 1 == 0x55 && t.reg 15 == 1) = true := by decide +kernel
/-- T34. -/
theorem test_andReg :
    answers (step (regs [(1, 0xF3), (2, 0x3C), (15, 1)] (at200 0x8122)))
      (fun t => t.reg 1 == 0x30 && t.reg 15 == 1) = true := by decide +kernel
/-- T35. -/
theorem test_xorReg :
    answers (step (regs [(1, 0xF3), (2, 0x3C), (15, 1)] (at200 0x8123)))
      (fun t => t.reg 1 == 0xCF && t.reg 15 == 1) = true := by decide +kernel
/-- T39. -/
theorem test_addReg_no_carry_at_255 :
    answers (step (regs [(1, 0x7F), (2, 0x80), (15, 1)] (at200 0x8124)))
      (fun t => t.reg 1 == 0xFF && t.reg 15 == 0) = true := by decide +kernel
/-- T41. -/
theorem test_addReg_into_flag :
    answers (step (regs [(15, 0xF0), (1, 0x20)] (at200 0x8F14)))
      (fun t => t.reg 15 == 0x10) = true := by decide +kernel
/-- T44. -/
theorem test_subReg_equal :
    answers (step (regs [(1, 0x33), (2, 0x33)] (at200 0x8125)))
      (fun t => t.reg 1 == 0 && t.reg 15 == 1) = true := by decide +kernel
/-- T47. -/
theorem test_subReg_flag_operand :
    answers (step (regs [(15, 5), (1, 7)] (at200 0x81F5)))
      (fun t => t.reg 1 == 2 && t.reg 15 == 1) = true := by decide +kernel
/-- T50. -/
theorem test_shr_ignores_y :
    answers (step (regs [(1, 0), (2, 0xFF), (15, 1)] (at200 0x8126)))
      (fun t => t.reg 1 == 0 && t.reg 2 == 0xFF && t.reg 15 == 0) = true := by decide +kernel
/-- T52. -/
theorem test_shr_of_flag :
    answers (step (regs [(15, 7)] (at200 0x8F06)))
      (fun t => t.reg 15 == 3) = true := by decide +kernel
/-- T53. -/
theorem test_subnReg_borrow :
    answers (step (regs [(1, 0x10), (2, 1), (15, 1)] (at200 0x8127)))
      (fun t => t.reg 1 == 0xF1 && t.reg 15 == 0) = true := by decide +kernel
/-- T57. -/
theorem test_shl :
    answers (step (regs [(1, 0xFF)] (at200 0x812E)))
      (fun t => t.reg 1 == 0xFE && t.reg 15 == 1) = true := by decide +kernel
/-- T59. -/
theorem test_shl_of_flag :
    answers (step (regs [(15, 0x81)] (at200 0x8F0E)))
      (fun t => t.reg 15 == 2) = true := by decide +kernel
/-- T63. -/
theorem test_ldI :
    answers (step (at200 0xAFFF))
      (fun t => t.i == 0xFFF) = true := by decide +kernel
/-- T12. -/
theorem test_jpV0 :
    answers (step (regs [(0, 0xFF)] (at200 0xBFFF)))
      (fun t => t.pc == 0x10FE) = true := by decide +kernel
/-- T61: with the mask 0 the result is 0 whatever the draw. -/
theorem test_rnd (s : State) : answers (exec (.rnd 1 0) s) (fun t => t.reg 1 == 0 && t.draws == s.draws + 1) = true := by
  simp [answers, exec, execRnd]
/-- T86. -/
theorem test_drw_aligned :
    answers (step ({ at200 0xD125 with i := 50 }))
      (fun t => [t.byte 3840, t.byte 3848, t.byte 3856, t.byte 3864, t.byte 3872] == [0xF0, 0x90, 0xF0, 0x90, 0x90] && t.reg 15 == 0) = true := by decide +kernel
/-- T96. -/
theorem test_drw_unaligned_collision :
    answers (step ({ regs [(1, 3)] (put 3840 [0x10] (put 0x300 [0xFF] (at200 0xD121))) with i := 0x300 }))
      (fun t => bytes t 3840 2 == [0x0F, 0xE0] && t.reg 15 == 1) = true := by decide +kernel
/-- T123. -/
theorem test_skp_not_masked :
    answers (step ({ regs [(1, 0x17)] (at200 0xE19E) with keys := 0x80 }))
      (fun t => t.pc == 0x202) = true := by decide +kernel
/-- T121. -/
theorem test_skp_held :
    answers (step ({ regs [(1, 7)] (at200 0xE19E) with keys := 0x80 }))
      (fun t => t.pc == 0x204) = true := by decide +kernel
/-- T124. -/
theorem test_sknp_held :
    answers (step ({ regs [(1, 7)] (at200 0xE1A1) with keys := 0x80 }))
      (fun t => t.pc == 0x202) = true := by decide +kernel
/-- T110. -/
theorem test_ldVxDt :
    answers (step ({ at200 0xF307 with dt := 0x2A }))
      (fun t => t.reg 3 == 0x2A && t.dt == 0x2A) = true := by decide +kernel
/-- T127. -/
theorem test_ldVxK :
    answers (step ({ regs [(1, 0x55)] (at200 0xF10A) with keys := 8 }))
      (fun t => t.run == .waitingForKey 1 && t.pc == 0x202 && t.reg 1 == 0x55) = true := by decide +kernel
/-- T111. -/
theorem test_ldDtVx :
    answers (step (regs [(0, 3)] (at200 0xF015)))
      (fun t => t.dt == 3 && t.st == 0) = true := by decide +kernel
/-- T112. -/
theorem test_ldStVx :
    answers (step (regs [(1, 0x10)] (at200 0xF118)))
      (fun t => t.st == 0x10 && t.tone && t.dt == 0) = true := by decide +kernel
/-- T65. -/
theorem test_addI_wraps :
    answers (step ({ regs [(1, 1), (15, 7)] (at200 0xF11E) with i := 0xFFFF }))
      (fun t => t.i == 0 && t.reg 15 == 7) = true := by decide +kernel
/-- T69. -/
theorem test_ldF_not_masked :
    answers (step (regs [(1, 0xFF)] (at200 0xF129)))
      (fun t => t.i == 0x4FB) = true := by decide +kernel
/-- T73. -/
theorem test_ldB :
    answers (step ({ regs [(1, 0x7B)] (at200 0xF133) with i := 4093 }))
      (fun t => bytes t 4093 3 == [1, 2, 3] && t.i == 4093) = true := by decide +kernel
/-- T75. -/
theorem test_ldB_no_wrap :
    answers (step ({ regs [(1, 0x7B)] (at200 0xF133) with i := 0xFFFF }))
      (fun t => faultedAs ({ regs [(1, 0x7B)] (at200 0xF133) with i := 0xFFFF }) (.addressOverrun 65535) t) = true := by decide +kernel
/-- T77. -/
theorem test_storeRegs :
    answers (step ({ regs [(0, 1), (1, 2), (2, 3)] (at200 0xF255) with i := 4093 }))
      (fun t => bytes t 4093 3 == [1, 2, 3] && t.i == 0x1000) = true := by decide +kernel
/-- T83. -/
theorem test_loadRegs :
    answers (step ({ regs [(2, 0x99)] (put 0x300 [0x11, 0x22, 0x33] (at200 0xF165)) with i := 0x300 }))
      (fun t => t.reg 0 == 0x11 && t.reg 1 == 0x22 && t.reg 2 == 0x99 && t.i == 0x302) = true := by decide +kernel
/-- T81. -/
theorem test_loadRegs_font :
    answers (step (at200 0xFF65))
      (fun t => t.v.toList == [0xF0, 0x90, 0x90, 0x90, 0xF0, 0x20, 0x60, 0x20, 0x20, 0x70, 0xF0, 0x10, 0xF0, 0x80, 0xF0, 0xF0]) = true := by decide +kernel

/-! ## The other events -/

theorem test_unmapped_is_no_op : answers (step (at200 0x01E0)) (fun t => t == (at200 0x01E0).advance) = true := by
  decide +kernel

/-- T139 in strict mode. -/
theorem test_unmapped_strict :
    answers (step { at200 0x5121 with cfg := { defaultConfig with strictUnmapped := true } })
      (fun t => t.run == .faulted (.unmappedOpcode 0x5121) && t.pc == 0x200) = true := by decide +kernel

/-- T144. -/
theorem test_fetch_at_4095 : answers (step { State.reset with pc := 4095 })
    (fun t => faultedAs { State.reset with pc := 4095 } (.addressOverrun 4096) t) = true := by decide +kernel

/-- T146, its second step: code at an odd address. -/
theorem test_odd_fetch : answers (step { put 0x203 [0x6A, 0x55] State.reset with pc := 0x203 })
    (fun t => t.reg 10 == 0x55 && t.pc == 0x205) = true := by decide +kernel

/-- T118: the timers count in a key wait. -/
theorem test_tick_in_key_wait :
    answers (step { State.reset with dt := 3, run := .waitingForKey 1, schedule := [.tick] })
      (fun t => t.dt == 2 && t.st == 0 && t.run == .waitingForKey 1 && t.schedule == []) = true := by decide +kernel

/-- T129. -/
theorem test_keyDown : answers (step { State.reset with keys := 8, schedule := [.keyDown 9] })
    (fun t => t.keys == 0x208) = true := by decide +kernel

/-- T133. -/
theorem test_keyUp : answers (step { State.reset with keys := 0x208, schedule := [.keyUp 3] })
    (fun t => t.keys == 0x200) = true := by decide +kernel

/-- T135. -/
theorem test_resolveKeyWait :
    answers (step { State.reset with run := .waitingForKey 15, v := Vector.replicate 16 7, schedule := [.resolveKeyWait 0] })
      (fun t => t.reg 15 == 0 && t.reg 14 == 7 && t.run == .running) = true := by decide +kernel

/-- T147, T152. -/
theorem test_reset_event :
    answers (step { (State.reset.raise .stackOverflow) with dt := 9, i := 7, schedule := [.reset [0x12, 0x00], .tick] })
      (fun t => t == { put 512 [0x12, 0x00] State.reset with schedule := [.tick] }) = true := by decide +kernel


/-! ## The end of a run (R208) -/

/-- T2. -/
theorem test_runEnd_selfJump : (at200 0x1200).runEnd = some (.selfJump 0x200) := by decide +kernel

theorem test_runEnd_offset_jump : (regs [(0, 1)] (at200 0xB1FF)).runEnd = some (.selfJump 0x200) := by decide +kernel

theorem test_runEnd_other_jump : (at200 0x1202).runEnd = none := by decide +kernel

/-- A program whose image is the one word 1200 has ended as soon as it is loaded. -/
theorem test_EndsAt : EndsAt 1 { State.reset with schedule := [.reset [0x12, 0x00]] } 0x200 :=
  ⟨_, rfl, by decide +kernel⟩

/-! ## For each obligation with hypotheses, a state and operands that meet them all. An obligation of several clauses
has a witness for each. -/

theorem test_witness_EncodeOfDecodedWord : decode 0xFF65 = .ok (.loadRegs 15) := rfl

theorem test_witness_DecoderFollowsOpcodeMap : wordMapped 0x8FFE = true ∧ wordMapped 0x8FFF = false := by
  decide +kernel

theorem test_witness_OpcodeRowsNeverOverlap :
    ∃ r ∈ opcodeMap, ∃ q ∈ opcodeMap, r.selects 0x812E = true ∧ q.selects 0x812E = true :=
  ⟨Instr.row (.shl 0 0), by decide +kernel, Instr.row (.shl 1 2), by decide +kernel, by decide +kernel, by decide +kernel⟩

/-- The last place a fetch can start, with an empty schedule and with `Step` at its head. -/
theorem test_witness_StepRunsDecodedInstruction :
    (let s := put 4094 [0x6A, 0xFF] { State.reset with pc := 4094 }
     s.run = .running ∧ s.pc.toNat + 1 < 4096 ∧ s.schedule = [] ∧
      decode (wordOf (s.byte s.pc.toNat) (s.byte (s.pc.toNat + 1))) = .ok (.ldImm 10 0xFF)) ∧
    (let s := put 0 [0x00, 0xE0] { State.reset with pc := 0, schedule := [.step, .tick] }
     s.run = .running ∧ s.pc.toNat + 1 < 4096 ∧ s.schedule = .step :: [.tick] ∧
      decode (wordOf (s.byte s.pc.toNat) (s.byte (s.pc.toNat + 1))) = .ok .cls) := by
  refine ⟨⟨?_, ?_, ?_, rfl⟩, ⟨?_, ?_, ?_, rfl⟩⟩ <;> decide +kernel

theorem test_witness_UnmappedWordIsNoOpOrStrictFault :
    (let s := State.reset
     s.run = .running ∧ s.pc.toNat + 1 < 4096 ∧ 0 = wordOf (s.byte s.pc.toNat) (s.byte (s.pc.toNat + 1)) ∧
      wordMapped 0 = false ∧ s.cfg.strictUnmapped = false) ∧
    (let s := { State.reset with pc := 4094, cfg := { defaultConfig with strictUnmapped := true } }
     s.run = .running ∧ s.pc.toNat + 1 < 4096 ∧ 0 = wordOf (s.byte s.pc.toNat) (s.byte (s.pc.toNat + 1)) ∧
      wordMapped 0 = false ∧ s.cfg.strictUnmapped = true) := by decide +kernel

theorem test_witness_FetchPastMemoryFaults :
    (let s := { State.reset with pc := 4096 }
     s.run = .running ∧ 4096 ≤ s.pc.toNat) ∧
    (let s := { State.reset with pc := 4095 }
     s.run = .running ∧ s.pc.toNat = 4095) := by decide +kernel

/-- Its five clauses: FF55 at 0x0200 over itself and the next word, FX33 with its first digit and with its second over
the next word, 00E0 before the framebuffer's first word and its last, a call into the lowest slot it pushes, DXYN
before the last row it draws. -/
theorem test_witness_StoredWordIsFetchedNext :
    (∃ (s t : State) (x k l : Fin 16), s.i.toNat + x.val < 4096 ∧ exec (.storeRegs x) s = .next t ∧
      s.pc.toNat + 2 = s.i.toNat + k.val ∧ l.val = k.val + 1 ∧ l ≤ x) ∧
    (∃ s t : State, s.i.toNat + 2 < 4096 ∧ exec (.ldB 15) s = .next t ∧ s.pc.toNat + 2 = s.i.toNat) ∧
    (∃ s t : State, s.i.toNat + 2 < 4096 ∧ exec (.ldB 15) s = .next t ∧ s.pc.toNat + 2 = s.i.toNat + 1) ∧
    (∃ s t : State, exec .cls s = .next t ∧ 3840 ≤ s.pc.toNat + 2 ∧ s.pc.toNat + 3 < 4096 ∧ s.pc.toNat = 3838) ∧
    (∃ s t : State, exec .cls s = .next t ∧ 3840 ≤ s.pc.toNat + 2 ∧ s.pc.toNat + 3 < 4096 ∧ s.pc.toNat = 4092) ∧
    (∃ (s t : State) (nnn : BitVec 12), s.cfg.stackLo ≤ s.sp.toNat ∧ s.sp.toNat + 1 < 4096 ∧
      nnn.toNat = s.sp.toNat ∧ exec (.call nnn) s = .next t) ∧
    (∃ s t : State, (∀ a ∈ drawAccesses s 1 2 1, a < 4096) ∧ exec (.drw 1 2 1) s = .next t ∧
      3840 ≤ s.pc.toNat + 2 ∧ s.pc.toNat + 3 < 4096) :=
  ⟨⟨{ State.reset with i := 0x1FF }, _, 15, 3, 4, by decide, exec_result _ _, by decide, by decide, by decide⟩,
    ⟨{ State.reset with i := 0x202 }, _, by decide, exec_result _ _, by decide⟩,
    ⟨{ State.reset with i := 4093, pc := 4092 }, _, by decide, exec_result _ _, by decide⟩,
    ⟨{ State.reset with pc := 3838 }, _, exec_result _ _, by decide, by decide, by decide⟩,
    ⟨{ State.reset with pc := 4092 }, _, exec_result _ _, by decide, by decide, by decide⟩,
    ⟨{ State.reset with sp := 480 }, _, 480, by decide, by decide, by decide, exec_result _ _⟩,
    ⟨{ regs [(1, 56), (2, 31)] State.reset with i := 0x300, pc := 4092 }, _, by decide +kernel, exec_result _ _,
      by decide +kernel, by decide +kernel⟩⟩

theorem test_witness_JumpToSelfIdles :
    let s := put 4094 [0x1F, 0xFE] { State.reset with pc := 4094 }
    let nnn : BitVec 12 := 4094
    s.run = .running ∧ s.pc.toNat = nnn.toNat ∧ nnn.toNat < 4095 ∧
      s.byte nnn.toNat = hi8 (encode (.jp nnn)) ∧ s.byte (nnn.toNat + 1) = lo8 (encode (.jp nnn)) := by
  decide +kernel

theorem test_witness_TickCountsBothTimersDown :
    State.isFaulted { State.reset with run := .waitingForKey 1 } = false ∧
    (State.reset.raise .stackOverflow).isFaulted = true := by decide

theorem test_witness_RepeatedTicksStopAtZero :
    let s := { State.reset with dt := 5, schedule := List.replicate 100 .tick }
    s.isFaulted = false ∧ s.schedule = List.replicate 100 .tick := ⟨rfl, rfl⟩

theorem test_witness_TickCommutesWithInstructions :
    ∃ (i : Instr) (s t : State), s.isFaulted = false ∧ t.isFaulted = false ∧
      (∀ x, i ≠ .ldVxDt x ∧ i ≠ .ldDtVx x ∧ i ≠ .ldStVx x) ∧ exec i s = .next t :=
  ⟨.ldVxK 1, { State.reset with dt := 5 }, _, rfl, rfl, fun _ => ⟨by simp, by simp, by simp⟩, rfl⟩

theorem test_witness_KeyEventsSetAndClearOneKey :
    State.reset.isFaulted = false ∧ (State.reset.raise .stackUnderflow).isFaulted = true := by decide

theorem test_witness_ResolveDeliversKeyAndResumes :
    ({ State.reset with run := .waitingForKey 15 } : State).run = .waitingForKey 15 ∧
    ∀ x, State.reset.run ≠ .waitingForKey x := ⟨rfl, fun x => by simp [State.reset]⟩

/-- The three shapes of hypothesis: FX0A fetched at the last place, a key wait left by each of its two edges, and
a step from `Running` into the wait. -/
theorem test_witness_SuspensionProtocol :
    (let s := put 4094 [0xFF, 0x0A] { State.reset with pc := 4094 }
     s.run = .running ∧ s.pc.toNat + 1 < 4096 ∧
      decode (wordOf (s.byte s.pc.toNat) (s.byte (s.pc.toNat + 1))) = .ok (.ldVxK 15)) ∧
    (let s := { State.reset with run := .waitingForKey 15 }
     s.run = .waitingForKey 15 ∧ (∃ t, event (.resolveKeyWait 0) s = .next t) ∧
      (∃ t, event (.reset []) s = .next t) ∧ ∃ t, event .tick s = .next t) ∧
    (let s := at200 0xF10A
     s.run = .running ∧ ∃ t, event .step s = .next t ∧ t.run = .waitingForKey 1) := by
  refine ⟨⟨rfl, by decide, rfl⟩, ⟨rfl, ⟨_, rfl⟩, ⟨_, rfl⟩, ⟨_, rfl⟩⟩, rfl, ⟨_, rfl, ?_⟩⟩
  decide +kernel

/-- FX33 at `I = 4094`, which has two bytes to store before it faults (T74). -/
theorem test_witness_FaultingStepHasNoOtherEffect :
    answers (event .step { at200 0xF133 with i := 4094 }) (fun t => t.isFaulted) = true := by decide +kernel

theorem test_witness_FaultedBlockIsAbsorbing :
    (State.reset.raise (.addressOverrun 4096)).isFaulted = true := rfl

/-- Each of the three causes an instruction can raise. -/
theorem test_witness_OnlyListedInstructionsFault :
    State.reset.Inv ∧ State.reset.run = .running ∧
    (∃ t, exec .ret State.reset = .next t ∧ t.run = .faulted .stackUnderflow) ∧
    (let s := { State.reset with sp := 478 }
     s.Inv ∧ ∃ t, exec (.call 0) s = .next t ∧ t.run = .faulted .stackOverflow) ∧
    (let s := { State.reset with i := 65535 }
     s.Inv ∧ ∃ t, exec (.loadRegs 15) s = .next t ∧ t.run = .faulted (.addressOverrun 65535)) :=
  ⟨⟨by decide, by decide, ⟨0, by decide, by decide⟩, trivial⟩, rfl, ⟨_, exec_result _ _, by decide +kernel⟩,
    ⟨⟨by decide, by decide, ⟨16, by decide, by decide⟩, trivial⟩, _, exec_result _ _, by decide +kernel⟩,
    ⟨⟨by decide, by decide, ⟨0, by decide, by decide⟩, trivial⟩, _, exec_result _ _, by decide +kernel⟩⟩

theorem test_witness_ResetBuildsAllState :
    State.reset.cfg.wf ∧ (List.replicate 3328 (1 : Byte)).length ≤ 3328 ∧ 3328 < (List.replicate 3329 (1 : Byte)).length := by
  simp only [List.length_replicate]; decide

theorem test_witness_StepKeepsTheInvariant :
    State.reset.Inv ∧ ∃ t, step State.reset = .next t :=
  ⟨⟨by decide, by decide, ⟨0, by decide, by decide⟩, trivial⟩, _, rfl⟩

theorem test_witness_ParametersNeverChange :
    ∃ t, step { State.reset with schedule := [.reset [0x12]] } = .next t := ⟨_, rfl⟩

theorem test_witness_RegistersChangeOnlyAtDestinations :
    ∃ t, exec (.loadRegs 1) State.reset = .next t ∧ t.reg 1 ≠ State.reset.reg 1 :=
  ⟨_, exec_result _ _, by decide +kernel⟩

theorem test_witness_FlagIsZeroOrOne :
    (setsFlag (.addReg 1 15) ∧ (∀ x y, x = flagReg → Instr.addReg 1 15 ≠ .addReg x y ∧
      Instr.addReg 1 15 ≠ .subReg x y ∧ Instr.addReg 1 15 ≠ .subnReg x y ∧ Instr.addReg 1 15 ≠ .shr x y ∧
      Instr.addReg 1 15 ≠ .shl x y) ∧
      ∃ t, exec (.addReg 1 15) State.reset = .next t ∧ t.isFaulted = false) ∧
    (setsFlag (.drw 15 15 1) ∧ ∃ t, exec (.drw 15 15 1) State.reset = .next t ∧ t.isFaulted = false) := by
  refine ⟨⟨.inl ⟨1, 15, .inl rfl⟩, ?_, _, rfl, rfl⟩, .inr ⟨15, 15, 1, rfl⟩, _, exec_result _ _, by decide +kernel⟩
  rintro x y rfl
  exact ⟨fun h => absurd (Instr.addReg.inj h).1 (by decide), by simp, by simp, by simp, by simp⟩

/-- A byte that a call stores, and the second byte of an unaligned sprite row. -/
theorem test_witness_MemoryChangesOnlyWhereStored :
    (∃ t, exec (.call 0) State.reset = .next t ∧ t.byte 510 ≠ State.reset.byte 510) ∧
    (let s := { regs [(1, 3)] (put 0x300 [0xFF] State.reset) with i := 0x300 }
     ∃ t, exec (.drw 1 0 1) s = .next t ∧ t.byte 3841 ≠ s.byte 3841) :=
  ⟨⟨_, exec_result _ _, by decide +kernel⟩, ⟨_, exec_result _ _, by decide +kernel⟩⟩

theorem test_witness_SpecialRegistersHaveTheirWriters :
    (let s := regs [(3, 7)] State.reset
     (∃ t, exec (.ldDtVx 3) s = .next t ∧ t.dt ≠ s.dt) ∧ (∃ t, exec (.ldStVx 3) s = .next t ∧ t.st ≠ s.st) ∧
     (∃ t, exec (.call 0) s = .next t ∧ t.sp ≠ s.sp) ∧ (∃ t, exec (.addI 3) s = .next t ∧ t.i ≠ s.i) ∧
     s.run = .running ∧ (∃ t, exec (.ldVxK 3) s = .next t ∧ t.run = .waitingForKey 3) ∧
     ∃ t, exec (.rnd 3 1) s = .next t ∧ t.draws ≠ s.draws) := by
  refine ⟨⟨_, exec_result _ _, ?_⟩, ⟨_, exec_result _ _, ?_⟩, ⟨_, exec_result _ _, ?_⟩, ⟨_, exec_result _ _, ?_⟩, rfl,
    ⟨_, exec_result _ _, ?_⟩, ⟨_, exec_result _ _, ?_⟩⟩ <;> decide +kernel

theorem test_witness_PcWrapsOnlyByReturn :
    ∃ t, Instr.jpV0 4095 ≠ .ret ∧ State.reset.pc.toNat + 1 < 4096 ∧ exec (.jpV0 4095) State.reset = .next t :=
  ⟨_, by simp, by decide, rfl⟩

theorem test_witness_SoundTimerInfluencesNothingElse : ∃ t, event .tick State.reset = .next t := ⟨_, rfl⟩

/-- The lowest slot of the call stack and the highest. -/
theorem test_witness_CallPushesItsOwnAddress :
    (let s := { State.reset with sp := 480 }
     s.cfg.stackLo ≤ s.sp.toNat ∧ s.sp.toNat + 1 < 4096) ∧
    (State.reset.cfg.stackLo ≤ State.reset.sp.toNat ∧ State.reset.sp.toNat + 1 < 4096) := by decide

theorem test_witness_CallWithFullStackOverflows :
    let s := { State.reset with sp := 478 }
    s.Inv ∧ s.sp.toNat + 2 + 2 * s.cfg.cap = s.cfg.stackHi :=
  ⟨⟨by decide, by decide, ⟨16, by decide, by decide⟩, trivial⟩, by decide⟩

theorem test_witness_ReturnResumesAfterStackedAddress :
    let s := { State.reset with sp := 508 }
    s.sp.toNat + 2 ≠ s.cfg.stackHi ∧ s.sp.toNat + 3 < 4096 ∧ 2 ≤ s.cfg.stackHi := by decide

theorem test_witness_ReturnOnEmptyStackUnderflows : State.reset.sp.toNat + 2 = State.reset.cfg.stackHi := by decide

theorem test_witness_CallThenReturnResumesAfterCall :
    ∃ (s t u : State) (nnn : BitVec 12), s.Inv ∧ s.cfg.stackLo ≤ s.sp.toNat ∧ exec (.call nnn) s = .next t ∧
      u.cfg = s.cfg ∧ u.sp = t.sp ∧ u.byte s.sp.toNat = t.byte s.sp.toNat ∧
      u.byte (s.sp.toNat + 1) = t.byte (s.sp.toNat + 1) :=
  ⟨{ State.reset with sp := 480 }, _, result (exec (.call 0x300) { State.reset with sp := 480 }) State.reset, 0x300,
    ⟨by decide, by decide, ⟨15, by decide, by decide⟩, trivial⟩, by decide, exec_result _ _, by decide +kernel,
    by decide +kernel, by decide +kernel, by decide +kernel⟩

theorem test_witness_BcdStoresThreeDigits : ({ State.reset with i := 4093 } : State).i.toNat + 2 < 4096 := by decide

theorem test_witness_StoreRegistersAtIndex :
    ({ State.reset with i := 4080 } : State).i.toNat + (15 : RegNum).val < 4096 ∧
    ({ State.reset with i := 4095 } : State).i.toNat + (0 : RegNum).val < 4096 := by decide

theorem test_witness_LoadRegistersFromIndex :
    ({ State.reset with i := 4080 } : State).i.toNat + (15 : RegNum).val < 4096 := by decide

theorem test_witness_IndexOverrunFaultsAtFirstAddress :
    4096 ≤ ({ State.reset with i := 4094 } : State).i.toNat + 2 ∧
    4096 ≤ ({ State.reset with i := 4081 } : State).i.toNat + (15 : RegNum).val := by decide

theorem test_witness_StoreThenLoadRestoresRegisters :
    ∃ (s t u : State) (x : RegNum), s.i.toNat + x.val < 4096 ∧ exec (.storeRegs x) s = .next t ∧ u.i = s.i ∧
      ∀ k : RegNum, k ≤ x → u.byte (s.i.toNat + k.val) = t.byte (s.i.toNat + k.val) :=
  ⟨regs [(0, 7)] State.reset, _, { result (exec (.storeRegs 1) (regs [(0, 7)] State.reset)) State.reset with i := 0 }, 1,
    by decide, exec_result _ _, by decide +kernel, by decide +kernel⟩

/-- T88: one row into the last byte of memory, aligned. -/
theorem test_witness_DrawXorsSpritePixels :
    let s := { regs [(1, 56), (2, 31)] (put 0x300 [0xFF] State.reset) with i := 0x300 }
    ∀ a ∈ drawAccesses s 1 2 1, a < 4096 := by decide +kernel

/-- T89, where the second byte is the first address out of range, and T98, where the sprite is. -/
theorem test_witness_DrawFaultsAtFirstOverrun :
    (drawAccesses { regs [(1, 57), (2, 31)] State.reset with i := 0x300 } 1 2 1).find? (fun b => 4096 ≤ b) = some 4096 ∧
    (drawAccesses { State.reset with i := 4097 } 1 2 1).find? (fun b => 4096 ≤ b) = some 4097 := by decide +kernel

/-- The sprite in the last byte of memory, and the column of the second clause at its bound; then an unaligned column
whose last row lies exactly at the bound 2039 (55 + 64 * 31), and one past it (57 + 64 * 31, T89). -/
theorem test_witness_DrawCompletesAboveTheBottomEdge :
    (let s := { regs [(1, 56)] State.reset with i := 4095 }
     s.isFaulted = false ∧ 1 ≤ (1 : Fin 16).val ∧ s.i.toNat + (1 : Fin 16).val ≤ 4096 ∧ (s.reg 1).toNat ≤ 56) ∧
    (let s := { regs [(1, 55), (2, 30)] State.reset with i := 0x300 }
     s.isFaulted = false ∧ 1 ≤ (2 : Fin 16).val ∧ s.i.toNat + (2 : Fin 16).val ≤ 4096 ∧ (s.reg 1).toNat ≤ 56 ∧
      (s.reg 1).toNat + 64 * ((s.reg 2).toNat + ((2 : Fin 16).val - 1)) = 2039) ∧
    (let s := { regs [(1, 57), (2, 31)] State.reset with i := 0x300 }
     s.isFaulted = false ∧ 1 ≤ (1 : Fin 16).val ∧ s.i.toNat + (1 : Fin 16).val ≤ 4096 ∧
      2039 < (s.reg 1).toNat + 64 * ((s.reg 2).toNat + ((1 : Fin 16).val - 1))) := by
  decide +kernel

/-- P3: three rows at the right edge, drawn twice, the second time by other registers. -/
theorem test_witness_DrawTwiceRestoresTheFramebuffer :
    ∃ (s t u : State) (x y x' y' : RegNum) (n : Fin 16), (∀ a ∈ drawAccesses s x y n, a < 4096) ∧
      exec (.drw x y n) s = .next t ∧ (∀ a, u.byte a = t.byte a) ∧ u.i = s.i ∧ u.reg x' = s.reg x ∧
      u.reg y' = s.reg y ∧ ∀ r, r < n.val → t.byte (s.i.toNat + r) = s.byte (s.i.toNat + r) := by
  refine ⟨{ regs [(0, 62)] (put 0x210 [0xFF, 0x81, 0xFF] State.reset) with i := 0x210 }, _,
    regs [(3, 62)] (result (exec (.drw 0 1 3)
      { regs [(0, 62)] (put 0x210 [0xFF, 0x81, 0xFF] State.reset) with i := 0x210 }) State.reset),
    0, 1, 3, 1, 3, ?_, exec_result _ _, fun a => ?_, ?_, ?_, ?_, ?_⟩
  all_goals first | rfl | decide +kernel

end Sys2Proof.Tests
end

namespace Sys2Proof.Machine

/-! ## What a `Step` event can do -/

/-- A word that is no instruction is skipped in the lenient mode and a fault in the strict one (R87, R185). -/
theorem execUnmapped_cases {op : Word} {s t : State} (h : execUnmapped op s = .next t) :
    t = s.advance ∨ t = s.raise (.unmappedOpcode op) := by
  unfold execUnmapped at h
  split at h
  · rw [finish_error, Host.Outcome.next.injEq] at h
    exact .inr h.symm
  · rw [Host.Outcome.next.injEq] at h
    exact .inl h.symm

/-- A `Step` event leaves a suspended or faulted engine alone; a running one faults at the fetch, meets the
word at `PC` as no instruction, or executes the instruction that it decodes to (R34). -/
theorem stepEvent_cases {s t : State} (h : stepEvent s = .next t) :
    (s.run ≠ .running ∧ t = s) ∨
    (s.run = .running ∧ 4096 ≤ s.pc.toNat + 1 ∧ t = s.raise (.addressOverrun (max s.pc.toNat 4096))) ∨
    (s.run = .running ∧ s.pc.toNat + 1 < 4096 ∧
      ((∃ e, decode (wordOf (s.byte s.pc.toNat) (s.byte (s.pc.toNat + 1))) = .error e ∧
          execUnmapped (wordOf (s.byte s.pc.toNat) (s.byte (s.pc.toNat + 1))) s = .next t) ∨
        ∃ i, decode (wordOf (s.byte s.pc.toNat) (s.byte (s.pc.toNat + 1))) = .ok i ∧ exec i s = .next t)) := by
  by_cases hr : s.run = .running
  · rw [stepEvent_of_running hr] at h
    by_cases hp : s.pc.toNat + 1 < 4096
    · rw [if_pos hp] at h
      refine .inr (.inr ⟨hr, hp, ?_⟩)
      cases hd : decode (wordOf (s.byte s.pc.toNat) (s.byte (s.pc.toNat + 1))) with
      | error e => exact .inl ⟨e, rfl, execWord_of_error hd s ▸ h⟩
      | ok i => exact .inr ⟨i, rfl, execWord_of_ok hd s ▸ h⟩
    · rw [if_neg hp, Host.Outcome.next.injEq] at h
      exact .inr (.inl ⟨hr, Nat.le_of_not_lt hp, h.symm⟩)
  · rw [stepEvent_of_not_running hr, Host.Outcome.next.injEq] at h
    exact .inl ⟨hr, h.symm⟩

/-! ## The parameters through each event (R5, R200) -/

@[simp] theorem State.cfg_tick (s : State) : s.tick.cfg = s.cfg := by
  unfold State.tick; split <;> rfl

@[simp] theorem State.cfg_keyDown (s : State) (c : KeyCode) : (s.keyDown c).cfg = s.cfg := by
  unfold State.keyDown; split <;> rfl

@[simp] theorem State.cfg_keyUp (s : State) (c : KeyCode) : (s.keyUp c).cfg = s.cfg := by
  unfold State.keyUp; split <;> rfl

@[simp] theorem State.cfg_resolveKeyWait (s : State) (c : KeyCode) : (s.resolveKeyWait c).cfg = s.cfg := by
  unfold State.resolveKeyWait; split <;> rfl

@[simp] theorem State.cfg_restart (s : State) (image : List Byte) : (s.restart image).cfg = s.cfg := rfl

theorem RowDrawn.cfg_eq {s t : State} {hit : Bool} {covers : Nat → Bool} (h : RowDrawn s t hit covers) :
    t.cfg = s.cfg := by
  rw [h.rest]

/-- No instruction writes a parameter, whether it completes or faults. -/
theorem exec_cfg {i : Instr} {s t : State} (h : exec i s = .next t) : t.cfg = s.cfg := by
  cases i with
  | cls =>
    rw [exec_cls_eq, Host.Outcome.next.injEq] at h
    rw [← h, State.cfg_advance, State.cfg_clearFramebuffer]
  | ret => rw [exec_ret_eq] at h; split_ifs at h <;> cases h <;> rfl
  | call nnn => rw [exec_call_eq] at h; split_ifs at h <;> cases h <;> rfl
  | ldB x => rw [exec_ldB_eq] at h; split_ifs at h <;> cases h <;> rfl
  | storeRegs x => rw [exec_storeRegs_eq] at h; split_ifs at h <;> cases h <;> rfl
  | loadRegs x =>
    rw [exec_loadRegs_eq] at h
    split_ifs at h <;> rw [Host.Outcome.next.injEq] at h <;> rw [← h]
    · rw [State.cfg_advance, State.cfg_setI, State.cfg_setRegs]
    · rw [State.cfg_raise]
  | drw x y n =>
    have hc := exec_drw_cases s x y n
    split at hc
    · rw [h, Host.Outcome.next.injEq] at hc
      rw [hc, State.cfg_raise]
    · obtain ⟨u, hit, he, hu⟩ := hc
      rw [h, Host.Outcome.next.injEq] at he
      rw [he, State.cfg_advance, State.cfg_setReg, hu.cfg_eq]
  | seImm | sneImm | seReg | sneReg | skp | sknp =>
    simp only [exec, execSeImm, execSneImm, execSeReg, execSneReg, execSkp, execSknp, skipIf_eq,
      Host.Outcome.next.injEq] at h
    rw [← h]
  | _ => cases h; rfl

theorem stepEvent_cfg {s t : State} (h : stepEvent s = .next t) : t.cfg = s.cfg := by
  obtain ⟨-, rfl⟩ | ⟨-, -, rfl⟩ | ⟨-, -, ⟨_, -, hu⟩ | ⟨_, -, hx⟩⟩ := stepEvent_cases h
  · rfl
  · exact State.cfg_raise ..
  · obtain rfl | rfl := execUnmapped_cases hu
    · exact State.cfg_advance ..
    · exact State.cfg_raise ..
  · exact exec_cfg hx

/-- An event that answers a state carries the parameters over, `Reset` included. -/
theorem event_cfg {e : Event} {s t : State} (h : event e s = .next t) : t.cfg = s.cfg := by
  cases e with
  | step => exact stepEvent_cfg h
  | tick => cases h; exact State.cfg_tick s
  | keyDown c => cases h; exact State.cfg_keyDown s c
  | keyUp c => cases h; exact State.cfg_keyUp s c
  | resolveKeyWait c => cases h; exact State.cfg_resolveKeyWait s c
  | reset image =>
    simp only [event, resetEvent] at h
    split at h
    · cases h; exact State.cfg_restart s image
    · cases h

/-- Settles O25: the event taken from the schedule carries the parameters over, and so does taking it. -/
theorem parametersNeverChange : Obligations.ParametersNeverChange := fun s _ h =>
  (event_cfg h).trans (State.cfg_takeEvent s)

end Sys2Proof.Machine

namespace Sys2Proof.Machine

/-! ## What an instruction can do to the state (R20, R22, R60) -/

/-- The contents of memory after an instruction that stores: canonical where they were, and the same at every
byte that the instruction has no business with. -/
structure Stored (s : State) (i : Instr) (m : Memory) : Prop where
  wf : Memory.wf s.cfg.font s.mem → Memory.wf s.cfg.font m
  outside : ∀ a, mayWriteByte i s a = false → Memory.read s.cfg.font m a = s.byte a

/-- The shapes that the effect of an instruction can have. Each names the fields it touches, so that every other
field is unchanged by the form of the constructor; `exec_effect` ties them to `exec`. -/
inductive Effect (s : State) : Instr → State → Prop
  | fault {i : Instr} {c : Cause} (legal : ∀ strict, Run.infoOk strict (.faulted c)) : Effect s i (s.raise c)
  | transfer {i : Instr} (target : Word) : Effect s i (s.jump target)
  | register {i : Instr} {x : RegNum} (b : Byte) (hx : mayWriteReg i x = true) : Effect s i (s.setReg x b).advance
  | flagThenRegister {i : Instr} {x : RegNum} (flag result : Byte) (hf : mayWriteReg i flagReg = true)
      (hx : mayWriteReg i x = true) : Effect s i (s.setFlagThenReg x flag result).advance
  | random (x : RegNum) (nn b : Byte) : Effect s (.rnd x nn) (s.draw.2.setReg x b).advance
  | index {i : Instr} (a : Nat) (hi : (∃ nnn, i = .ldI nnn) ∨ ∃ x, i = .addI x ∨ i = .ldF x) :
      Effect s i (s.setI a).advance
  | delayTimer (x : RegNum) : Effect s (.ldDtVx x) { s with dt := s.reg x }.advance
  | soundTimer (x : RegNum) : Effect s (.ldStVx x) { s with st := s.reg x }.advance
  | keyWait (x : RegNum) : Effect s (.ldVxK x) { s with run := .waitingForKey x }.advance
  | store {i : Instr} {m : Memory} (hm : Stored s i m) : Effect s i { s with mem := m }.advance
  | storeRegs {x : RegNum} {m : Memory} (hm : Stored s (.storeRegs x) m) :
      Effect s (.storeRegs x) (State.setI { s with mem := m } (s.i.toNat + (x.val + 1))).advance
  | loadRegs {x : RegNum} {v : Vector Byte 16}
      (hv : ∀ k, mayWriteReg (.loadRegs x) k = false → State.reg { s with v := v } k = s.reg k) :
      Effect s (.loadRegs x) (State.setI { s with v := v } (s.i.toNat + (x.val + 1))).advance
  | draw {x y : RegNum} {n : Fin 16} {m : Memory} (flag : Byte) (hm : Stored s (.drw x y n) m) :
      Effect s (.drw x y n) (State.setReg { s with mem := m } flagReg flag).advance
  | call {nnn : BitVec 12} {m : Memory} (hlo : s.cfg.stackLo ≤ s.sp.toNat) (hm : Stored s (.call nnn) m) :
      Effect s (.call nnn) { s with mem := m, sp := s.sp - 2, pc := addrImm nnn }
  | ret (target : Word) (hsp : s.sp.toNat ≠ s.cfg.stackHi - 2) :
      Effect s .ret { s with sp := s.sp + 2, pc := target }

/-! ### The contents of memory after each kind of store -/

/-- A run of bytes stored inside memory, at addresses that the instruction may write. -/
theorem stored_writeList {s : State} {i : Instr} {a : Nat} {bs : List Byte} (hfit : a + bs.length ≤ 4096)
    (hmay : ∀ c, a ≤ c → c < a + bs.length → mayWriteByte i s c = true) :
    Stored s i (Memory.writeList s.cfg.font s.mem a bs) where
  wf hw := Memory.wf_writeList bs hw hfit
  outside c hc := by
    rw [Memory.read_writeList, if_neg, State.byte_eq]
    rintro ⟨hac, hca⟩
    rw [hmay c hac hca] at hc
    cases hc

theorem stored_clearFramebuffer (s : State) : Stored s .cls s.clearFramebuffer.mem where
  wf hw := by
    simp only [State.clearFramebuffer]
    exact Memory.wf_fill 0 Config.fbLen hw (by decide)
  outside a ha := by
    have hr := State.byte_clearFramebuffer s a
    rw [State.byte_eq, State.cfg_clearFramebuffer] at hr
    rw [hr, if_neg]
    simpa [mayWriteByte] using ha

theorem clearFramebuffer_eq_mem_update (s : State) :
    s.clearFramebuffer = { s with mem := s.clearFramebuffer.mem } := by simp only [State.clearFramebuffer]

/-- A drawing that completes: its memory is canonical and its bytes are those `exec_drw_outside` speaks of. -/
theorem RowDrawn.stored {s u : State} {x y : RegNum} {n : Fin 16} {hit : Bool} {covers : Nat → Bool}
    (hu : RowDrawn s u hit covers)
    (he : exec (.drw x y n) s = .next (u.setReg flagReg (flagOf hit)).advance) :
    Stored s (.drw x y n) u.mem where
  wf := hu.wf
  outside a ha := by
    rw [← hu.cfg_eq, ← State.byte_eq]
    exact exec_drw_outside he (by simpa [mayWriteByte] using ha)

/-! ### The faults an instruction raises record what R180 allows -/

/-- An access from a 16-bit address that runs out of memory faults within the bounds of R180. -/
theorem infoOk_overrun_word (w : Word) (strict : Bool) :
    Run.infoOk strict (.faulted (.addressOverrun (max w.toNat 4096))) := by
  have := w.isLt
  simp only [Run.infoOk]; omega

theorem le_of_mem_rowsAccesses {b n a : Nat} (h : a ∈ rowsAccesses b n) : a ≤ 3840 + (b + 64 * n) / 8 + 1 := by
  obtain ⟨r, hr, ha⟩ := List.mem_flatMap.1 h
  have := List.mem_range.1 hr
  unfold rowAccesses at ha
  split at ha <;> simp only [List.mem_cons, List.not_mem_nil, or_false] at ha <;> omega

/-- The highest address DXYN can access is below the bound of R180. -/
theorem le_of_mem_drawAccesses {s : State} {x y : RegNum} {n : Fin 16} {a : Nat}
    (h : a ∈ drawAccesses s x y n) : a ≤ 65550 := by
  have hi := s.i.isLt
  have hn := n.isLt
  have hx := (s.reg x).isLt
  have hy := (s.reg y).isLt
  rcases List.mem_append.1 h with h | h
  · obtain ⟨r, hr, rfl⟩ := List.mem_map.1 h
    have := List.mem_range.1 hr
    omega
  · have := le_of_mem_rowsAccesses h
    omega

/-! ### The effect of each instruction that can fault -/

theorem exec_call_effect {nnn : BitVec 12} {s t : State} (h : exec (.call nnn) s = .next t) :
    Effect s (.call nnn) t := by
  rw [exec_call_eq] at h
  split_ifs at h with hfull hfit <;> cases h
  · exact .fault fun _ => trivial
  · refine .call (Nat.le_of_not_lt hfull) (stored_writeList hfit fun c hac hca => ?_)
    simp only [List.length_cons, List.length_nil] at hca
    simp only [mayWriteByte, Bool.or_eq_true, beq_iff_eq]
    omega
  · exact .fault (infoOk_overrun_word s.sp)

theorem exec_ret_effect {s t : State} (h : exec .ret s = .next t) : Effect s .ret t := by
  rw [exec_ret_eq] at h
  split_ifs at h with hempty <;> cases h
  · exact .fault fun _ => trivial
  · exact .ret _ hempty
  · exact .fault (infoOk_overrun_word (s.sp + 2))

theorem stored_bcdDigits {s : State} (x : RegNum) (hfit : s.i.toNat + 3 ≤ 4096) :
    Stored s (.ldB x) (Memory.writeList s.cfg.font s.mem s.i.toNat (bcdDigits (s.reg x))) := by
  refine stored_writeList hfit fun c hac hca => ?_
  simp only [bcdDigits, List.length_cons, List.length_nil] at hca
  simp only [mayWriteByte, Bool.and_eq_true, decide_eq_true_eq]
  omega

theorem exec_ldB_effect {x : RegNum} {s t : State} (h : exec (.ldB x) s = .next t) : Effect s (.ldB x) t := by
  rw [exec_ldB_eq] at h
  split_ifs at h with hfit <;> rw [Host.Outcome.next.injEq] at h <;> subst h
  · exact .store (stored_bcdDigits x hfit)
  · exact .fault (infoOk_overrun_word s.i)

theorem exec_storeRegs_effect {x : RegNum} {s t : State} (h : exec (.storeRegs x) s = .next t) :
    Effect s (.storeRegs x) t := by
  rw [exec_storeRegs_eq] at h
  split_ifs at h with hfit <;> cases h
  · refine .storeRegs (stored_writeList (by rw [length_regsUpTo]; omega) fun c hac hca => ?_)
    rw [length_regsUpTo] at hca
    simp only [mayWriteByte, Bool.and_eq_true, decide_eq_true_eq]
    omega
  · exact .fault (infoOk_overrun_word s.i)

/-- A register that FX65 does not load keeps its value: the list of loaded bytes ends before it. -/
theorem reg_setRegs_of_not_mayWriteReg {s : State} {x k : RegNum} {bs : List Byte} (hbs : bs.length = x.val + 1)
    (hk : mayWriteReg (.loadRegs x) k = false) : (s.setRegs bs).reg k = s.reg k := by
  simp only [mayWriteReg, decide_eq_false_iff_not] at hk
  rw [State.reg_setRegs, List.getD_eq_default _ _ (by omega)]

theorem exec_loadRegs_effect {x : RegNum} {s t : State} (h : exec (.loadRegs x) s = .next t) :
    Effect s (.loadRegs x) t := by
  rw [exec_loadRegs_eq] at h
  split_ifs at h <;> rw [Host.Outcome.next.injEq] at h <;> subst h
  · exact .loadRegs fun k => reg_setRegs_of_not_mayWriteReg (by rw [List.length_map, List.length_range])
  · exact .fault (infoOk_overrun_word s.i)

theorem exec_drw_effect {x y : RegNum} {n : Fin 16} {s t : State} (h : exec (.drw x y n) s = .next t) :
    Effect s (.drw x y n) t := by
  have hc := exec_drw_cases s x y n
  split at hc
  next a ha =>
    rw [h, Host.Outcome.next.injEq] at hc
    subst hc
    exact .fault fun _ => ⟨by simpa using List.find?_some ha, le_of_mem_drawAccesses (List.mem_of_find?_eq_some ha)⟩
  next =>
    obtain ⟨u, hit, he, hu⟩ := hc
    have hm := hu.stored he
    rw [h, Host.Outcome.next.injEq] at he
    rw [he, hu.rest]
    exact .draw _ hm

/-- Every instruction has one of the effects: the one inversion of `exec` that the frames, the bounds and the
invariant are read off. -/
theorem exec_effect {i : Instr} {s t : State} (h : exec i s = .next t) : Effect s i t := by
  cases i with
  | call nnn => exact exec_call_effect h
  | ret => exact exec_ret_effect h
  | ldB x => exact exec_ldB_effect h
  | storeRegs x => exact exec_storeRegs_effect h
  | loadRegs x => exact exec_loadRegs_effect h
  | drw x y n => exact exec_drw_effect h
  | cls =>
    rw [exec_cls_eq, Host.Outcome.next.injEq, clearFramebuffer_eq_mem_update] at h
    exact h ▸ .store (stored_clearFramebuffer s)
  | jp | jpV0 => cases h; exact .transfer _
  | seImm | sneImm | seReg | sneReg | skp | sknp =>
    simp only [exec, execSeImm, execSneImm, execSeReg, execSneReg, execSkp, execSknp, skipIf_eq,
      Host.Outcome.next.injEq] at h
    exact h ▸ .transfer _
  | ldImm | addImm | ldReg | orReg | andReg | xorReg | ldVxDt =>
    cases h; exact .register _ (by simp [mayWriteReg])
  | addReg | subReg | shr | subnReg | shl =>
    cases h; exact .flagThenRegister _ _ (by simp [mayWriteReg]) (by simp [mayWriteReg])
  | ldI nnn => cases h; exact .index _ (.inl ⟨nnn, rfl⟩)
  | addI x => cases h; exact .index _ (.inr ⟨x, .inl rfl⟩)
  | ldF x => cases h; exact .index _ (.inr ⟨x, .inr rfl⟩)
  | rnd x nn => cases h; exact .random x nn _
  | ldVxK x => cases h; exact .keyWait x
  | ldDtVx x => cases h; exact .delayTimer x
  | ldStVx x => cases h; exact .soundTimer x

end Sys2Proof.Machine

namespace Sys2Proof

/-! ## A word of the opcode map decodes (R84, R85) -/

theorem fieldF_of_selects_F000 {p : String} {b op : Word} (h : OpcodeRow.selects ⟨p, 0xF000, b⟩ op = true) :
    fieldF op = b.toNat / 4096 := by
  rw [selects_F000] at h
  simp only [fieldF]; omega

theorem fields_of_selects_F00F {p : String} {b op : Word} (h : OpcodeRow.selects ⟨p, 0xF00F, b⟩ op = true) :
    fieldF op = b.toNat / 4096 ∧ (fieldN op).val = b.toNat % 16 := by
  rw [selects_F00F] at h
  simp only [fieldF, fieldN]; omega

theorem fields_of_selects_F0FF {p : String} {b op : Word} (h : OpcodeRow.selects ⟨p, 0xF0FF, b⟩ op = true) :
    fieldF op = b.toNat / 4096 ∧ (fieldNN op).toNat = b.toNat % 256 := by
  rw [selects_F0FF] at h
  simp only [fieldF, fieldNN, BitVec.toNat_ofNat]; omega

/-- The decoder finds an instruction in every word that selects a row of the opcode map. -/
theorem decode_ok_of_selects {op : Word} {i : Instr} (h : i.row.selects op = true) : ∃ j, decode op = .ok j := by
  cases i with
  | cls | ret =>
    rw [Instr.row, selects_FFFF] at h
    subst h
    exact ⟨_, rfl⟩
  | seReg | sneReg =>
    obtain ⟨hF, hN⟩ := fields_of_selects_F00F h
    simp [decode, hF, hN]
  | ldReg | orReg | andReg | xorReg | addReg | subReg | shr | subnReg | shl =>
    obtain ⟨hF, hN⟩ := fields_of_selects_F00F h
    simp [decode, decode8, hF, hN]
  | skp | sknp =>
    obtain ⟨hF, hNN⟩ := fields_of_selects_F0FF h
    simp [decode, decodeE, hF, hNN]
  | ldVxDt | ldVxK | ldDtVx | ldStVx | addI | ldF | ldB | storeRegs | loadRegs =>
    obtain ⟨hF, hNN⟩ := fields_of_selects_F0FF h
    simp [decode, decodeF, hF, hNN]
  | jp | call | seImm | sneImm | ldImm | addImm | ldI | jpV0 | rnd | drw =>
    simp [decode, fieldF_of_selects_F000 h]

/-- A word that the decoder refuses selects no row of the opcode map. -/
theorem wordMapped_eq_false_of_decode_error {op : Word} {e : DecodeError} (h : decode op = .error e) :
    wordMapped op = false := by
  by_contra hmapped
  simp only [Bool.not_eq_false, wordMapped, opcodeMap, List.any_map, List.any_eq_true, Function.comp] at hmapped
  obtain ⟨i, -, hi⟩ := hmapped
  obtain ⟨j, hj⟩ := decode_ok_of_selects hi
  rw [h] at hj
  cases hj

end Sys2Proof

namespace Sys2Proof.Machine

/-! ## The invariant (R28, R31, R58, R180) -/

/-- The invariant speaks of the parameters, memory, `SP` and `RUN` alone. -/
theorem State.Inv.of_eq {s t : State} (hs : s.Inv) (hc : t.cfg = s.cfg) (hm : t.mem = s.mem) (hp : t.sp = s.sp)
    (hr : t.run.infoOk s.cfg.strictUnmapped) : t.Inv where
  config := hc ▸ hs.config
  memory := by rw [hc, hm]; exact hs.memory
  stack := by
    obtain ⟨d, hd, hsp⟩ := hs.stack
    exact ⟨d, by rwa [hc], by rwa [hc, hp]⟩
  info := by rwa [hc]

/-- A state whose memory alone has changed, to a canonical one, keeps the invariant. -/
theorem State.Inv.with_mem {s : State} (hs : s.Inv) {m : Memory} (hm : Memory.wf s.cfg.font m) :
    State.Inv { s with mem := m } where
  config := hs.config
  memory := hm
  stack := hs.stack
  info := hs.info

/-- A push that passed its check leaves one entry more, and the capacity had room for it (R59). -/
theorem State.Inv.stackOk_push {s : State} (hs : s.Inv) (hlo : s.cfg.stackLo ≤ s.sp.toNat) :
    ∃ depth, depth ≤ s.cfg.cap ∧ (s.sp - 2).toNat + 2 + 2 * depth = s.cfg.stackHi := by
  obtain ⟨d, hd, hsp⟩ := hs.stack
  obtain ⟨hfont, hlohi, hprog, hloEven, hhiEven⟩ := hs.config
  have hsub : (s.sp - 2).toNat = s.sp.toNat - 2 := BitVec.toNat_sub_of_le (by
    rw [BitVec.le_def]; simp only [BitVec.reduceToNat]; omega)
  refine ⟨d + 1, ?_, by omega⟩
  simp only [Config.cap] at hd ⊢
  omega

/-- A pop that passed its check leaves one entry less (R59). -/
theorem State.Inv.stackOk_pop {s : State} (hs : s.Inv) (hsp : s.sp.toNat ≠ s.cfg.stackHi - 2) :
    ∃ depth, depth ≤ s.cfg.cap ∧ (s.sp + 2).toNat + 2 + 2 * depth = s.cfg.stackHi := by
  obtain ⟨d, hd, hd'⟩ := hs.stack
  obtain ⟨hfont, hlohi, hprog, hloEven, hhiEven⟩ := hs.config
  have hadd : (s.sp + 2).toNat = s.sp.toNat + 2 := BitVec.toNat_add_of_lt (by
    simp only [BitVec.reduceToNat]; omega)
  exact ⟨d - 1, by omega, by omega⟩

theorem Effect.inv {i : Instr} {s t : State} (he : Effect s i t) (hs : s.Inv) : t.Inv := by
  cases he with
  | fault legal => exact hs.of_eq rfl rfl rfl (legal _)
  | keyWait x => exact hs.of_eq rfl rfl rfl trivial
  | store hm | storeRegs hm | draw _ hm => exact (hs.with_mem (hm.wf hs.memory)).of_eq rfl rfl rfl hs.info
  | call hlo hm => exact ⟨hs.config, hm.wf hs.memory, hs.stackOk_push hlo, hs.info⟩
  | ret _ hsp => exact ⟨hs.config, hs.memory, hs.stackOk_pop hsp, hs.info⟩
  | transfer | register | flagThenRegister | random | index | delayTimer | soundTimer | loadRegs =>
    exact hs.of_eq rfl rfl rfl hs.info

/-- An unmapped word is skipped in the lenient mode, and recorded in the strict one (R185). -/
theorem execUnmapped_inv {op : Word} {s t : State} (hop : wordMapped op = false)
    (h : execUnmapped op s = .next t) (hs : s.Inv) : t.Inv := by
  unfold execUnmapped at h
  split_ifs at h with hstrict
  · cases h; exact hs.of_eq rfl rfl rfl ⟨hstrict, hop⟩
  · cases h; exact hs.of_eq rfl rfl rfl hs.info

theorem stepEvent_inv {s t : State} (h : stepEvent s = .next t) (hs : s.Inv) : t.Inv := by
  obtain ⟨-, rfl⟩ | ⟨-, -, rfl⟩ | ⟨-, -, ⟨_, hd, hu⟩ | ⟨_, -, hx⟩⟩ := stepEvent_cases h
  · exact hs
  · exact hs.of_eq rfl rfl rfl (infoOk_overrun_word s.pc _)
  · exact execUnmapped_inv (wordMapped_eq_false_of_decode_error hd) hu hs
  · exact (exec_effect hx).inv hs

theorem State.Inv.tick {s : State} (hs : s.Inv) : s.tick.Inv := by
  unfold State.tick
  split
  · exact hs
  · exact hs.of_eq rfl rfl rfl hs.info

theorem State.Inv.keyDown {s : State} (hs : s.Inv) (c : KeyCode) : (s.keyDown c).Inv := by
  unfold State.keyDown
  split
  · exact hs
  · exact hs.of_eq rfl rfl rfl hs.info

theorem State.Inv.keyUp {s : State} (hs : s.Inv) (c : KeyCode) : (s.keyUp c).Inv := by
  unfold State.keyUp
  split
  · exact hs
  · exact hs.of_eq rfl rfl rfl hs.info

theorem State.Inv.resolveKeyWait {s : State} (hs : s.Inv) (c : KeyCode) : (s.resolveKeyWait c).Inv := by
  unfold State.resolveKeyWait
  split
  · exact hs
  · exact hs.of_eq rfl rfl rfl trivial
  · exact hs

/-- An accepted image fits into memory, and the stack of the block it starts is empty (R200, R201). -/
theorem State.Inv.restart {s : State} (hs : s.Inv) {image : List Byte} (himage : imageFits image) :
    (s.restart image).Inv where
  config := hs.config
  memory := Memory.wf_writeList image (Memory.wf_nil _) (by
    simp only [imageFits, Config.progMax] at himage
    simp only [Config.progBase, Config.memSize]
    omega)
  stack := by
    obtain ⟨hfont, hlohi, hprog, hloEven, hhiEven⟩ := hs.config
    refine ⟨0, Nat.zero_le _, ?_⟩
    simp only [State.restart, BitVec.toNat_ofNat]
    omega
  info := trivial

theorem event_inv {e : Event} {s t : State} (h : event e s = .next t) (hs : s.Inv) : t.Inv := by
  cases e with
  | step => exact stepEvent_inv h hs
  | tick => cases h; exact hs.tick
  | keyDown c => cases h; exact hs.keyDown c
  | keyUp c => cases h; exact hs.keyUp c
  | resolveKeyWait c => cases h; exact hs.resolveKeyWait c
  | reset image =>
    simp only [event, resetEvent] at h
    split at h
    next himage => cases h; exact hs.restart himage
    next => cases h

/-- Settles O24: taking the event from the schedule keeps the invariant, and so does every event. -/
theorem stepKeepsTheInvariant : Obligations.StepKeepsTheInvariant := fun _ _ hs h =>
  event_inv h (hs.of_eq rfl rfl rfl hs.info)

/-- Settles O23: no cell is listed, the stack is empty and the default parameters are admissible. -/
theorem resetStateMeetsTheInvariant : Obligations.ResetStateMeetsTheInvariant where
  config := by decide
  memory := Memory.wf_nil _
  stack := ⟨0, by decide, by decide⟩
  info := trivial

end Sys2Proof.Machine

namespace Sys2Proof.Machine

/-! ## The sound timer influences nothing but itself (R29, R38) -/

/-- The result of a drawing operation with another value of `ST` in the state. -/
def withSound (b : Byte) (r : State × Bool) : State × Bool := ({ r.1 with st := b }, r.2)

theorem xorByte_with_st (s : State) (a : Nat) (mask b : Byte) :
    xorByte { s with st := b } a mask = (xorByte s a mask).map (withSound b) := by
  rw [xorByte_eq, xorByte_eq]
  split <;> rfl

theorem drawRow_with_st (s : State) (o : Nat) (row b : Byte) :
    drawRow { s with st := b } o row = (drawRow s o row).map (withSound b) := by
  unfold drawRow
  rw [xorByte_with_st]
  cases xorByte s (Config.fbBase + o / 8) (row >>> (o % 8)) with
  | error c => rfl
  | ok r =>
    simp only [Except.map, withSound, xorByte_with_st]
    split
    · rfl
    · cases xorByte r.1 (Config.fbBase + o / 8 + 1) (row <<< (8 - o % 8)) <;> rfl

theorem drawRows_with_st (b : Byte) (rows : List Byte) : ∀ (s : State) (o : Nat),
    drawRows { s with st := b } o rows = (drawRows s o rows).map (withSound b) := by
  induction rows with
  | nil => intro s o; rfl
  | cons row rows ih =>
    intro s o
    rw [drawRows, drawRows, drawRow_with_st]
    cases drawRow s o row with
    | error c => rfl
    | ok r =>
      simp only [Except.map, withSound, ih]
      cases drawRows r.1 (o + Config.fbWidth) rows <;> rfl

/-- The last part of DXYN: `VF` becomes the collision flag and `PC` moves on (R154). -/
def endDraw (r : State × Bool) : State := (r.1.setReg flagReg (flagOf r.2)).advance

/-- DXYN with its sprite in memory draws the rows; otherwise it faults before it draws. -/
theorem exec_drw_eq (s : State) (x y : RegNum) (n : Fin 16) :
    exec (.drw x y n) s = if n.val = 0 ∨ s.i.toNat + n.val ≤ 4096 then
        finish s ((drawRows s (pixelOffset (s.reg x) (s.reg y))
          ((List.range n.val).map (fun k => s.byte (s.i.toNat + k)))).map endDraw)
      else .next (s.raise (.addressOverrun (max s.i.toNat 4096))) := by
  simp only [exec, execDrw, State.indexAddr, readBytes_eq, Nat.add_zero]
  by_cases hfit : n.val = 0 ∨ s.i.toNat + n.val ≤ 4096
  · simp only [if_pos hfit]
    cases drawRows s (pixelOffset (s.reg x) (s.reg y))
      ((List.range n.val).map (fun k => s.byte (s.i.toNat + k))) <;> rfl
  · simp only [if_neg hfit, finish_error]

theorem finish_endDraw_with_st {s t : State} {r : Except Cause (State × Bool)}
    (h : finish s (r.map endDraw) = .next t) (b : Byte) :
    finish { s with st := b } ((r.map (withSound b)).map endDraw) = .next { t with st := b } := by
  cases r <;> cases h <;> rfl

theorem exec_drw_with_st {x y : RegNum} {n : Fin 16} {s t : State} (h : exec (.drw x y n) s = .next t) (b : Byte) :
    exec (.drw x y n) { s with st := b } = .next { t with st := b } := by
  rw [exec_drw_eq] at h
  split_ifs at h with hfit
  · refine (exec_drw_eq _ x y n).trans ((if_pos hfit).trans ?_)
    rw [drawRows_with_st]
    exact finish_endDraw_with_st h b
  · cases h
    exact (exec_drw_eq _ x y n).trans (if_neg hfit)

/-- Whatever an instruction does, it does with another value `b` of `ST` as well, and the results differ in `ST` alone: it
stays `b`, or FX18 overwrites it with its register. -/
theorem exec_with_st {i : Instr} {s t : State} (h : exec i s = .next t) (b : Byte) :
    ∃ c, exec i { s with st := b } = .next { t with st := c } := by
  cases i with
  | drw x y n => exact ⟨b, exec_drw_with_st h b⟩
  | cls =>
    rw [exec_cls_eq, Host.Outcome.next.injEq] at h
    refine ⟨b, ?_⟩
    rw [exec_cls_eq, ← h]
    simp only [State.clearFramebuffer, State.advance]
  | call nnn =>
    rw [exec_call_eq] at h
    split_ifs at h with hfull hfit <;> cases h
    · exact ⟨b, (exec_call_eq _ _).trans (if_pos hfull)⟩
    · exact ⟨b, (exec_call_eq _ _).trans ((if_neg hfull).trans (if_pos hfit))⟩
    · exact ⟨b, (exec_call_eq _ _).trans ((if_neg hfull).trans (if_neg hfit))⟩
  | ret =>
    rw [exec_ret_eq] at h
    split_ifs at h with hempty hfit <;> cases h
    · exact ⟨b, (exec_ret_eq _).trans (if_pos hempty)⟩
    · exact ⟨b, (exec_ret_eq _).trans ((if_neg hempty).trans (if_pos hfit))⟩
    · exact ⟨b, (exec_ret_eq _).trans ((if_neg hempty).trans (if_neg hfit))⟩
  | ldB x =>
    rw [exec_ldB_eq] at h
    split_ifs at h with hfit <;> rw [Host.Outcome.next.injEq] at h <;> subst h
    · exact ⟨b, (exec_ldB_eq _ _).trans (if_pos hfit)⟩
    · exact ⟨b, (exec_ldB_eq _ _).trans (if_neg hfit)⟩
  | storeRegs x =>
    rw [exec_storeRegs_eq] at h
    split_ifs at h with hfit <;> rw [Host.Outcome.next.injEq] at h <;> subst h
    · exact ⟨b, (exec_storeRegs_eq _ _).trans (if_pos hfit)⟩
    · exact ⟨b, (exec_storeRegs_eq _ _).trans (if_neg hfit)⟩
  | loadRegs x =>
    rw [exec_loadRegs_eq] at h
    split_ifs at h with hfit <;> rw [Host.Outcome.next.injEq] at h <;> subst h
    · exact ⟨b, (exec_loadRegs_eq _ _).trans (if_pos hfit)⟩
    · exact ⟨b, (exec_loadRegs_eq _ _).trans (if_neg hfit)⟩
  | seImm | sneImm | seReg | sneReg | skp | sknp =>
    simp only [exec, execSeImm, execSneImm, execSeReg, execSneReg, execSkp, execSknp, skipIf_eq,
      Host.Outcome.next.injEq] at h ⊢
    subst h
    exact ⟨b, rfl⟩
  | _ => cases h; exact ⟨_, rfl⟩

theorem execUnmapped_with_st {op : Word} {s t : State} (h : execUnmapped op s = .next t) (b : Byte) :
    execUnmapped op { s with st := b } = .next { t with st := b } := by
  unfold execUnmapped at h ⊢
  split_ifs at h ⊢ <;> cases h <;> rfl

theorem execWord_with_st {op : Word} {s t : State} (h : execWord op s = .next t) (b : Byte) :
    ∃ c, execWord op { s with st := b } = .next { t with st := c } := by
  cases hd : decode op with
  | ok i =>
    rw [execWord_of_ok hd] at h ⊢
    exact exec_with_st h b
  | error e =>
    rw [execWord_of_error hd] at h ⊢
    exact ⟨b, execUnmapped_with_st h b⟩

theorem stepEvent_with_st {s t : State} (h : stepEvent s = .next t) (b : Byte) :
    ∃ c, stepEvent { s with st := b } = .next { t with st := c } := by
  by_cases hr : s.run = .running
  · have hr' : State.run { s with st := b } = .running := hr
    rw [stepEvent_of_running hr] at h
    rw [stepEvent_of_running hr']
    split_ifs at h ⊢ with hp
    · exact execWord_with_st h b
    · cases h
      exact ⟨b, rfl⟩
  · have hr' : State.run { s with st := b } ≠ .running := hr
    rw [stepEvent_of_not_running hr, Host.Outcome.next.injEq] at h
    exact ⟨b, h ▸ stepEvent_of_not_running hr'⟩

theorem tick_with_st (s : State) (b : Byte) : ∃ c, State.tick { s with st := b } = { s.tick with st := c } := by
  have hf : State.isFaulted { s with st := b } = s.isFaulted := rfl
  simp only [State.tick, hf]
  split
  · exact ⟨b, rfl⟩
  · exact ⟨countDown b, rfl⟩

theorem keyDown_with_st (s : State) (k : KeyCode) (b : Byte) :
    State.keyDown { s with st := b } k = { s.keyDown k with st := b } := by
  have hf : State.isFaulted { s with st := b } = s.isFaulted := rfl
  simp only [State.keyDown, hf]
  split <;> rfl

theorem keyUp_with_st (s : State) (k : KeyCode) (b : Byte) :
    State.keyUp { s with st := b } k = { s.keyUp k with st := b } := by
  have hf : State.isFaulted { s with st := b } = s.isFaulted := rfl
  simp only [State.keyUp, hf]
  split <;> rfl

theorem resolveKeyWait_with_st (s : State) (k : KeyCode) (b : Byte) :
    State.resolveKeyWait { s with st := b } k = { s.resolveKeyWait k with st := b } := by
  unfold State.resolveKeyWait
  cases hr : s.run with
  | running => simp only [hr]
  | waitingForKey x => rfl
  | faulted c => simp only [hr]

/-- Settles O31, event by event; `Reset` makes `ST` anew, so that the two blocks even become equal. -/
theorem soundTimerInfluencesNothingElse : Obligations.SoundTimerInfluencesNothingElse := by
  intro e s t b h
  cases e with
  | step => exact stepEvent_with_st h b
  | tick =>
    cases h
    obtain ⟨c, hc⟩ := tick_with_st s b
    exact ⟨c, congrArg _ hc⟩
  | keyDown k => cases h; exact ⟨b, congrArg _ (keyDown_with_st s k b)⟩
  | keyUp k => cases h; exact ⟨b, congrArg _ (keyUp_with_st s k b)⟩
  | resolveKeyWait k => cases h; exact ⟨b, congrArg _ (resolveKeyWait_with_st s k b)⟩
  | reset image =>
    simp only [event, resetEvent] at h ⊢
    split_ifs at h ⊢
    cases h
    exact ⟨0, rfl⟩

end Sys2Proof.Machine

namespace Sys2Proof.Machine

/-! ## Who writes what (R20, R22, R60) -/

theorem Effect.reg_eq {i : Instr} {s t : State} {k : RegNum} (he : Effect s i t) (hk : mayWriteReg i k = false) :
    t.reg k = s.reg k := by
  have hne : ∀ x, mayWriteReg i x = true → k ≠ x := by
    rintro x hx rfl
    rw [hk] at hx
    cases hx
  cases he with
  | register b hx => rw [State.reg_advance, State.reg_setReg, if_neg (hne _ hx)]
  | flagThenRegister f r hf hx =>
    rw [State.reg_advance, State.reg_setFlagThenReg, if_neg (hne _ hx), if_neg (hne _ hf)]
  | random x nn b => rw [State.reg_advance, State.reg_setReg, if_neg (hne x (by simp [mayWriteReg])), State.reg_draw]
  | draw f hm => exact (State.reg_setReg ..).trans (if_neg (hne _ (by simp [mayWriteReg])))
  | loadRegs hv => exact hv k hk
  | fault | transfer | index | delayTimer | soundTimer | keyWait | store | storeRegs | call | ret => rfl

/-- Settles O26: no effect of an instruction reaches a register that is not among its destinations. -/
theorem registersChangeOnlyAtDestinations : Obligations.RegistersChangeOnlyAtDestinations := by
  intro i s t k h hne
  by_contra hk
  exact hne ((exec_effect h).reg_eq (Bool.not_eq_true _ ▸ hk))

theorem Effect.byte_eq {i : Instr} {s t : State} {a : Nat} (he : Effect s i t) (ha : mayWriteByte i s a = false) :
    t.byte a = s.byte a := by
  cases he with
  | store hm | storeRegs hm | draw _ hm | call _ hm => exact hm.outside a ha
  | fault | transfer | register | flagThenRegister | random | index | delayTimer | soundTimer | keyWait | loadRegs
  | ret => rfl

/-- Settles O28: an instruction changes memory through its stores alone. -/
theorem memoryChangesOnlyWhereStored : Obligations.MemoryChangesOnlyWhereStored := by
  intro i s t a h hne
  by_contra ha
  exact hne ((exec_effect h).byte_eq (Bool.not_eq_true _ ▸ ha))

/-! ### The flag (R22) -/

theorem flagOf_zero_or_one (c : Bool) : flagOf c = 0 ∨ flagOf c = 1 := by
  cases c
  · exact .inl rfl
  · exact .inr rfl

theorem lowBitFlag_zero_or_one (b : Byte) : lowBitFlag b = 0 ∨ lowBitFlag b = 1 := by
  unfold lowBitFlag
  obtain h | h := Nat.mod_two_eq_zero_or_one b.toNat <;> simp [h]

theorem highBitFlag_zero_or_one (b : Byte) : highBitFlag b = 0 ∨ highBitFlag b = 1 := by
  have := b.isLt
  unfold highBitFlag
  obtain h | h : b.toNat / 128 = 0 ∨ b.toNat / 128 = 1 := by omega
  all_goals simp [h]

/-- An instruction that writes `VF` and then another register leaves the flag in `VF`. -/
theorem reg_flagReg_after_setFlagThenReg {s t : State} {x : RegNum} {f r : Byte} (hx : x ≠ flagReg)
    (h : (Host.Outcome.next (s.setFlagThenReg x f r).advance : Host.Outcome State Fault Refusal) = .next t) :
    t.reg flagReg = f := by
  cases h
  rw [State.reg_advance, State.reg_setFlagThenReg, if_neg hx.symm, if_pos rfl]

theorem reg_flagReg_after_drw {x y : RegNum} {n : Fin 16} {s t : State} (h : exec (.drw x y n) s = .next t)
    (hf : t.isFaulted = false) : ∃ hit, t.reg flagReg = flagOf hit := by
  have hc := exec_drw_cases s x y n
  split at hc
  · rw [h, Host.Outcome.next.injEq] at hc
    rw [hc, isFaulted_raise] at hf
    cases hf
  · obtain ⟨u, hit, he, -⟩ := hc
    rw [h, Host.Outcome.next.injEq] at he
    exact ⟨hit, by rw [he, State.reg_advance, State.reg_setReg, if_pos rfl]⟩

/-- Settles O27: each of the six flags is 0 or 1, and nothing overwrites it. -/
theorem flagIsZeroOrOne : Obligations.FlagIsZeroOrOne := by
  intro i s t hi hdest h hf
  obtain ⟨x, y, hi⟩ | ⟨x, y, n, rfl⟩ := hi
  · have hx : x ≠ flagReg := by
      rintro rfl
      have := hdest flagReg y rfl
      tauto
    obtain rfl | rfl | rfl | rfl | rfl := hi
    · exact reg_flagReg_after_setFlagThenReg hx h ▸ flagOf_zero_or_one _
    · exact reg_flagReg_after_setFlagThenReg hx h ▸ flagOf_zero_or_one _
    · exact reg_flagReg_after_setFlagThenReg hx h ▸ flagOf_zero_or_one _
    · exact reg_flagReg_after_setFlagThenReg hx h ▸ lowBitFlag_zero_or_one _
    · exact reg_flagReg_after_setFlagThenReg hx h ▸ highBitFlag_zero_or_one _
  · obtain ⟨hit, he⟩ := reg_flagReg_after_drw h hf
    exact he ▸ flagOf_zero_or_one hit

/-! ### The special registers (R20, R38) -/

theorem Effect.keys_eq {i : Instr} {s t : State} (he : Effect s i t) : t.keys = s.keys := by
  cases he <;> rfl

theorem Effect.schedule_eq {i : Instr} {s t : State} (he : Effect s i t) : t.schedule = s.schedule := by
  cases he <;> rfl

theorem Effect.writes_dt {i : Instr} {s t : State} (he : Effect s i t) (hne : t.dt ≠ s.dt) :
    ∃ x, i = .ldDtVx x := by
  cases he with
  | delayTimer x => exact ⟨x, rfl⟩
  | _ => exact absurd rfl hne

theorem Effect.writes_st {i : Instr} {s t : State} (he : Effect s i t) (hne : t.st ≠ s.st) :
    ∃ x, i = .ldStVx x := by
  cases he with
  | soundTimer x => exact ⟨x, rfl⟩
  | _ => exact absurd rfl hne

theorem Effect.writes_sp {i : Instr} {s t : State} (he : Effect s i t) (hne : t.sp ≠ s.sp) :
    i = .ret ∨ ∃ nnn, i = .call nnn := by
  cases he with
  | ret => exact .inl rfl
  | @call nnn => exact .inr ⟨nnn, rfl⟩
  | _ => exact absurd rfl hne

theorem Effect.writes_i {i : Instr} {s t : State} (he : Effect s i t) (hne : t.i ≠ s.i) :
    (∃ nnn, i = .ldI nnn) ∨ ∃ x, i = .addI x ∨ i = .ldF x ∨ i = .storeRegs x ∨ i = .loadRegs x := by
  cases he with
  | index a hi => exact hi.imp_right fun ⟨x, hx⟩ => ⟨x, hx.imp_right .inl⟩
  | @storeRegs x => exact .inr ⟨x, .inr (.inr (.inl rfl))⟩
  | @loadRegs x => exact .inr ⟨x, .inr (.inr (.inr rfl))⟩
  | _ => exact absurd rfl hne

theorem Effect.enters_keyWait {i : Instr} {s t : State} (he : Effect s i t) {x : RegNum} (hs : s.run = .running)
    (ht : t.run = .waitingForKey x) : i = .ldVxK x := by
  cases he with
  | keyWait y => cases ht; rfl
  | fault => cases ht
  | _ => cases hs.symm.trans ht

theorem Effect.uses_draw {i : Instr} {s t : State} (he : Effect s i t) (hne : t.draws ≠ s.draws) :
    ∃ x nn, i = .rnd x nn := by
  cases he with
  | random x nn => exact ⟨x, nn, rfl⟩
  | _ => exact absurd rfl hne

/-- Settles O29: each clause is read off the effect of the instruction. -/
theorem specialRegistersHaveTheirWriters : Obligations.SpecialRegistersHaveTheirWriters := by
  intro i s t h
  have he := exec_effect h
  exact ⟨he.keys_eq, exec_cfg h, he.schedule_eq, he.writes_dt, he.writes_st, he.writes_sp, he.writes_i,
    fun _ => he.enters_keyWait, he.uses_draw⟩

/-! ### The program counter (R27) -/

theorem toNat_addrImm (nnn : BitVec 12) : (addrImm nnn).toNat = nnn.toNat := by
  have := nnn.isLt
  simp only [addrImm, BitVec.toNat_ofNat]; omega

/-- The sum that BNNN jumps to needs no reduction (R103). -/
theorem toNat_offsetTarget (nnn : BitVec 12) (v0 : Byte) : (offsetTarget nnn v0).toNat = nnn.toNat + v0.toNat := by
  have := nnn.isLt
  have := v0.isLt
  simp only [offsetTarget, BitVec.toNat_ofNat]; omega

/-- Settles O30: the highest `PC` is the target of BNNN with `NNN = 0xFFF` and `V0 = 0xFF`. -/
theorem pcWrapsOnlyByReturn : Obligations.PcWrapsOnlyByReturn := by
  intro i s t hi hpc h
  obtain hp | hp | ⟨c, rfl⟩ | ⟨nnn, -, rfl⟩ | ⟨nnn, -, rfl⟩ | ⟨nnn, -, hp, -⟩ | ⟨hret, -⟩ := exec_pc_cases h
  · bv_omega
  · bv_omega
  · rw [State.pc_raise]; omega
  · have := nnn.isLt
    rw [State.pc_jump, toNat_addrImm]; omega
  · have := nnn.isLt
    have := (s.reg 0).isLt
    rw [State.pc_jump, toNat_offsetTarget]; omega
  · have := nnn.isLt
    rw [hp, toNat_addrImm]; omega
  · exact absurd hret hi

/-! ## The step and the reset state (R33, R34, R36) -/

theorem stepEvent_of_decode {s : State} {i : Instr} (hr : s.run = .running) (hp : s.pc.toNat + 1 < 4096)
    (hd : decode (wordOf (s.byte s.pc.toNat) (s.byte (s.pc.toNat + 1))) = .ok i) : stepEvent s = exec i s := by
  rw [stepEvent_of_running hr, if_pos hp, execWord_of_ok hd]

/-- Settles O7: the schedule decides only that the event is `Step`. -/
theorem stepRunsDecodedInstruction : Obligations.StepRunsDecodedInstruction := by
  intro s i hr hp hd
  refine ⟨fun hnil => ?_, fun rest hcons => ?_⟩
  · rw [step_of_empty hnil]
    exact stepEvent_of_decode hr hp hd
  · rw [step_of_cons hcons]
    exact stepEvent_of_decode (s := { s with schedule := rest }) hr hp hd

/-- After reset every cell reads as unlisted: the font, and 0 above it (R36). -/
theorem byte_reset (a : Nat) : State.reset.byte a = if h : a < 80 then defaultFont[a] else 0 := by
  have hu : State.reset.byte a = Memory.unlisted defaultFont a := Memory.read_nil _ a
  rw [hu, Memory.unlisted, List.getD_eq_getElem?_getD]
  split
  next h => simp [h]
  next h => rw [List.getElem?_eq_none (by simpa using h)]; rfl

theorem reg_reset (k : RegNum) : State.reset.reg k = 0 := by
  simp [State.reg, State.reset]

/-- Settles O22: `Reset` with the empty image and `State.reset` agree field by field, and so does every literal value. -/
theorem resetStateValues : Obligations.ResetStateValues :=
  ⟨rfl, byte_reset, reg_reset, rfl, rfl, rfl, rfl, rfl, rfl, rfl, rfl⟩

end Sys2Proof.Machine

namespace Sys2Proof.Machine

/-! ## A stored word is what the next fetch reads (R53, R64) -/

/-- The bits of a big-endian word: the low byte below bit 8 and the high byte above it. -/
theorem getLsbD_wordOf (hi lo : Byte) (j : Nat) :
    (wordOf hi lo).getLsbD j = if j < 8 then lo.getLsbD j else hi.getLsbD (j - 8) := by
  have hw : wordOf hi lo = (hi ++ lo : BitVec 16) := by
    apply BitVec.eq_of_toNat_eq
    have hhi := hi.isLt
    have hlo := lo.isLt
    rw [wordOf, BitVec.toNat_ofNat, BitVec.toNat_append, Nat.shiftLeft_eq, or_eq_add_of_lt hlo]
    omega
  rw [hw, BitVec.getLsbD_append]

theorem toNat_pc_add_two {s : State} (h : s.pc.toNat + 2 < 65536) : (s.pc + 2).toNat = s.pc.toNat + 2 := by
  bv_omega

theorem fetch_of_toNat_pc {t : State} {a : Nat} (hpc : t.pc.toNat = a) (ha : a + 1 < 4096) :
    fetch t = .ok (wordOf (t.byte a) (t.byte (a + 1))) := by
  rw [fetch_eq, hpc, if_pos ha]

/-- Fetch is coherent with a run of stored bytes: where `PC` stands at the `k`-th of them, it reads that byte and
the one after it. -/
theorem fetch_writeList {s t : State} {a k : Nat} {bs : List Byte}
    (hm : t.mem = Memory.writeList s.cfg.font s.mem a bs) (hc : t.cfg = s.cfg) (hpc : t.pc.toNat = a + k)
    (hk : k + 1 < bs.length) (hfit : a + bs.length ≤ 4096) :
    fetch t = .ok (wordOf (bs.getD k 0) (bs.getD (k + 1) 0)) := by
  have hbyte : ∀ j, j < bs.length → t.byte (a + j) = bs.getD j 0 := fun j hj => by
    rw [State.byte_eq, hm, hc, Memory.read_writeList, if_pos (by omega), Nat.add_sub_cancel_left]
  rw [fetch_of_toNat_pc hpc (by omega), hbyte k (by omega), Nat.add_assoc, hbyte (k + 1) hk]

/-- FX55 over the next instruction. -/
theorem fetch_after_storeRegs {s t : State} {x k l : Fin 16} (hfit : s.i.toNat + x.val < 4096)
    (h : exec (.storeRegs x) s = .next t) (hpc : s.pc.toNat + 2 = s.i.toNat + k.val) (hl : l.val = k.val + 1)
    (hlx : l ≤ x) : fetch t = .ok (wordOf (s.reg k) (s.reg l)) := by
  rw [exec_storeRegs_eq, if_pos hfit] at h
  cases h
  have hlx' : l.val ≤ x.val := hlx
  have hkx : k ≤ x := by rw [Fin.le_def]; omega
  rw [← getD_regsUpTo s hkx, ← getD_regsUpTo s hlx, hl]
  exact fetch_writeList (s := s) rfl rfl ((toNat_pc_add_two (by omega)).trans hpc)
    (by rw [length_regsUpTo]; omega) (by rw [length_regsUpTo]; omega)

/-- FX33 over the next instruction, which its `k`-th digit and the one after it replace. -/
theorem fetch_after_ldB {s t : State} {x : RegNum} {k : Nat} (hfit : s.i.toNat + 2 < 4096)
    (h : exec (.ldB x) s = .next t) (hpc : s.pc.toNat + 2 = s.i.toNat + k) (hk : k < 2) :
    fetch t = .ok (wordOf ((bcdDigits (s.reg x)).getD k 0) ((bcdDigits (s.reg x)).getD (k + 1) 0)) := by
  have hlen : (bcdDigits (s.reg x)).length = 3 := rfl
  rw [exec_ldB_eq, if_pos (by omega), Host.Outcome.next.injEq] at h
  subst h
  exact fetch_writeList (s := s) rfl rfl ((toNat_pc_add_two (by omega)).trans hpc) (by omega) (by omega)

/-- 00E0 before a word of the framebuffer. -/
theorem fetch_after_cls {s t : State} (h : exec .cls s = .next t) (hlo : 3840 ≤ s.pc.toNat + 2)
    (hhi : s.pc.toNat + 3 < 4096) : fetch t = .ok 0 := by
  rw [exec_cls_eq, Host.Outcome.next.injEq] at h
  subst h
  have hpc : s.clearFramebuffer.advance.pc.toNat = s.pc.toNat + 2 := by
    rw [State.pc_advance, State.pc_clearFramebuffer, toNat_pc_add_two (by omega)]
  rw [fetch_of_toNat_pc hpc (by omega), State.byte_advance, State.byte_advance, State.byte_clearFramebuffer,
    State.byte_clearFramebuffer, if_pos (by omega), if_pos (by omega)]
  rfl

/-- 2NNN that jumps to the slot it pushes reads its own address there. -/
theorem fetch_after_call {s t : State} {nnn : BitVec 12} (hlo : s.cfg.stackLo ≤ s.sp.toNat)
    (hfit : s.sp.toNat + 1 < 4096) (hnnn : nnn.toNat = s.sp.toNat) (h : exec (.call nnn) s = .next t) :
    fetch t = .ok s.pc := by
  rw [exec_call_eq, if_neg (by omega), if_pos hfit, Host.Outcome.next.injEq] at h
  calc fetch t = .ok (wordOf (hi8 s.pc) (lo8 s.pc)) := by
        subst h
        exact fetch_writeList (s := s) (k := 0) (bs := [hi8 s.pc, lo8 s.pc]) rfl rfl
          ((toNat_addrImm nnn).trans hnnn) (Nat.lt_succ_self 1) hfit
    _ = .ok s.pc := by rw [wordOf_hi8_lo8]

/-- DXYN with every access in memory draws the whole sprite. -/
theorem exec_drw_of_fits {s : State} {x y : RegNum} {n : Fin 16} (hfit : ∀ a ∈ drawAccesses s x y n, a < 4096) :
    ∃ u hit, exec (.drw x y n) s = .next (u.setReg flagReg (flagOf hit)).advance ∧
      RowDrawn s u hit (spriteCovers s x y n) := by
  have hnone : (drawAccesses s x y n).find? (fun a => 4096 ≤ a) = none := by
    simpa using hfit
  have hc := exec_drw_cases s x y n
  rwa [hnone] at hc

/-- A word of the framebuffer is 16 pixels, the leftmost in its highest bit (R150). -/
theorem getLsbD_wordOf_eq_pixel (s : State) {a j : Nat} (ha : 3840 ≤ a) (hj : j < 16) :
    (wordOf (s.byte a) (s.byte (a + 1))).getLsbD (15 - j) = s.pixel (8 * (a - 3840) + j) := by
  rw [getLsbD_wordOf, State.pixel, Config.fbBase]
  by_cases hlow : j < 8
  · rw [if_neg (by omega), show 3840 + (8 * (a - 3840) + j) / 8 = a by omega,
      show 7 - (8 * (a - 3840) + j) % 8 = 15 - j - 8 by omega]
  · rw [if_pos (by omega), show 3840 + (8 * (a - 3840) + j) / 8 = a + 1 by omega,
      show 7 - (8 * (a - 3840) + j) % 8 = 15 - j by omega]

/-- DXYN before a word of the framebuffer. -/
theorem fetch_after_drw {s t : State} {x y : RegNum} {n : Fin 16} (hfit : ∀ a ∈ drawAccesses s x y n, a < 4096)
    (h : exec (.drw x y n) s = .next t) (hlo : 3840 ≤ s.pc.toNat + 2) (hhi : s.pc.toNat + 3 < 4096) :
    ∃ w, fetch t = .ok w ∧ ∀ j, j < 16 → w.getLsbD (15 - j) =
      (s.pixel (8 * (s.pc.toNat + 2 - 3840) + j) ^^ spriteCovers s x y n (8 * (s.pc.toNat + 2 - 3840) + j)) := by
  obtain ⟨u, hit, he, hu⟩ := exec_drw_of_fits hfit
  rw [h, Host.Outcome.next.injEq] at he
  subst he
  have hup : u.pc = s.pc := by rw [hu.rest]
  have hpc : (u.setReg flagReg (flagOf hit)).advance.pc.toNat = s.pc.toNat + 2 := by
    rw [State.pc_advance, State.pc_setReg, hup, toNat_pc_add_two (by omega)]
  refine ⟨_, fetch_of_toNat_pc hpc hhi, fun j hj => ?_⟩
  rw [State.byte_advance, State.byte_setReg, State.byte_advance, State.byte_setReg,
    getLsbD_wordOf_eq_pixel u hlo hj, hu.pixel]

/-- Settles O10: each of the five stores leaves at the next `PC` the two bytes that `fetch` joins. -/
theorem storedWordIsFetchedNext : Obligations.StoredWordIsFetchedNext :=
  ⟨fun _ _ _ _ _ => fetch_after_storeRegs,
    fun _ _ _ hfit h => ⟨fun hpc => fetch_after_ldB (k := 0) hfit h hpc (by decide),
      fun hpc => fetch_after_ldB (k := 1) hfit h hpc (by decide)⟩,
    fun _ _ => fetch_after_cls,
    fun _ _ _ => fetch_after_call,
    fun _ _ _ _ _ => fetch_after_drw⟩

end Sys2Proof.Machine

namespace Sys2Proof

/-! ## The decoder and the encoder are inverse to each other (R81, R84, R90) -/

/-! ### The fields of a word of each format (R82) -/

@[simp] theorem fields_wordA {f : Nat} (hf : f < 16) (nnn : BitVec 12) :
    fieldF (wordA f nnn) = f ∧ fieldNNN (wordA f nnn) = nnn := by
  have := nnn.isLt
  refine ⟨?_, BitVec.eq_of_toNat_eq ?_⟩
  · rw [fieldF, wordA_toNat hf]; omega
  · rw [fieldNNN, wordA_toNat hf, BitVec.toNat_ofNat]; omega

@[simp] theorem fields_wordXI {f : Nat} (hf : f < 16) (x : RegNum) (nn : Byte) :
    fieldF (wordXI f x nn) = f ∧ fieldX (wordXI f x nn) = x ∧ fieldNN (wordXI f x nn) = nn := by
  have := x.isLt
  have := nn.isLt
  refine ⟨?_, Fin.ext ?_, BitVec.eq_of_toNat_eq ?_⟩
  · rw [fieldF, wordXI_toNat hf]; omega
  · simp only [fieldX, wordXI_toNat hf]; omega
  · rw [fieldNN, wordXI_toNat hf, BitVec.toNat_ofNat]; omega

@[simp] theorem fields_wordXY {f n : Nat} (hf : f < 16) (hn : n < 16) (x y : RegNum) :
    fieldF (wordXY f x y n) = f ∧ fieldX (wordXY f x y n) = x ∧ fieldY (wordXY f x y n) = y ∧
      fieldN (wordXY f x y n) = ⟨n, hn⟩ := by
  have := x.isLt
  have := y.isLt
  refine ⟨?_, Fin.ext ?_, Fin.ext ?_, Fin.ext ?_⟩
  · rw [fieldF, wordXY_toNat hf hn]; omega
  · simp only [fieldX, wordXY_toNat hf hn]; omega
  · simp only [fieldY, wordXY_toNat hf hn]; omega
  · simp only [fieldN, wordXY_toNat hf hn]; omega

@[simp] theorem fields_wordXS {f sub : Nat} (hf : f < 16) (hsub : sub < 256) (x : RegNum) :
    fieldF (wordXS f x sub) = f ∧ fieldX (wordXS f x sub) = x ∧ (fieldNN (wordXS f x sub)).toNat = sub := by
  have := x.isLt
  refine ⟨?_, Fin.ext ?_, ?_⟩
  · rw [fieldF, wordXS_toNat hf hsub]; omega
  · simp only [fieldX, wordXS_toNat hf hsub]; omega
  · rw [fieldNN, wordXS_toNat hf hsub, BitVec.toNat_ofNat]; omega

/-- The decoder takes every instruction back out of its word: the family and the fixed digits lead to the
instruction's own arm, and the fields are its operands. -/
theorem decode_encode (i : Instr) : decode (encode i) = .ok i := by
  cases i with
  | cls | ret => rfl
  | jp | call | seImm | sneImm | ldImm | addImm | ldI | jpV0 | rnd | drw | seReg | sneReg => simp [encode, decode]
  | ldReg | orReg | andReg | xorReg | addReg | subReg | shr | subnReg | shl => simp [encode, decode, decode8]
  | skp | sknp => simp [encode, decode, decodeE]
  | ldVxDt | ldVxK | ldDtVx | ldStVx | addI | ldF | ldB | storeRegs | loadRegs => simp [encode, decode, decodeF]

/-- A stream of bytes that starts with the two bytes of an instruction decodes to it and the rest (R80). -/
theorem decodeBytes_encodeBytes_append (i : Instr) (rest : List Byte) :
    decodeBytes (encodeBytes i ++ rest) = .ok (i, rest) := by
  simp only [encodeBytes, List.cons_append, List.nil_append, decodeBytes, wordOf_hi8_lo8, decode_encode]

/-- Settles O1: the decoder inverts the encoder, on a word and at the head of a stream of bytes. -/
theorem decodeOfEncodedInstruction : Obligations.DecodeOfEncodedInstruction := fun i rest =>
  ⟨decode_encode i, decodeBytes_encodeBytes_append i rest⟩

/-! ### A word is put together again from its fields (R82) -/

theorem wordA_of_fields {op : Word} {f : Nat} (hF : fieldF op = f) : wordA f (fieldNNN op) = op := by
  subst hF
  apply BitVec.eq_of_toNat_eq
  simp only [wordA, fieldF, fieldNNN, BitVec.toNat_ofNat]; omega

theorem wordXI_of_fields {op : Word} {f : Nat} (hF : fieldF op = f) : wordXI f (fieldX op) (fieldNN op) = op := by
  subst hF
  apply BitVec.eq_of_toNat_eq
  simp only [wordXI, fieldF, fieldX, fieldNN, BitVec.toNat_ofNat]; omega

theorem wordXY_of_fields {op : Word} {f n : Nat} (hF : fieldF op = f) (hN : (fieldN op).val = n) :
    wordXY f (fieldX op) (fieldY op) n = op := by
  subst hF hN
  apply BitVec.eq_of_toNat_eq
  simp only [wordXY, fieldF, fieldX, fieldY, fieldN, BitVec.toNat_ofNat]; omega

theorem wordXS_of_fields {op : Word} {f sub : Nat} (hF : fieldF op = f) (hNN : (fieldNN op).toNat = sub) :
    wordXS f (fieldX op) sub = op := by
  subst hF hNN
  apply BitVec.eq_of_toNat_eq
  simp only [wordXS, fieldF, fieldX, fieldNN, BitVec.toNat_ofNat]; omega

theorem encode_of_decode8 {op : Word} {i : Instr} (hF : fieldF op = 0x8) (h : decode8 op = .ok i) :
    encode i = op := by
  unfold decode8 at h
  split at h <;> cases h
  all_goals next hN => exact wordXY_of_fields hF hN

theorem encode_of_decodeE {op : Word} {i : Instr} (hF : fieldF op = 0xE) (h : decodeE op = .ok i) :
    encode i = op := by
  unfold decodeE at h
  split at h <;> cases h
  all_goals next hNN => exact wordXS_of_fields hF hNN

theorem encode_of_decodeF {op : Word} {i : Instr} (hF : fieldF op = 0xF) (h : decodeF op = .ok i) :
    encode i = op := by
  unfold decodeF at h
  split at h <;> cases h
  all_goals next hNN => exact wordXS_of_fields hF hNN

/-- The decoder drops no bit: in each family the word is the one that its fields make in the instruction's format.
The cases are the families in their order, `h_1` for family 0 to `h_16` for family F. -/
theorem encode_of_decode {op : Word} {i : Instr} (h : decode op = .ok i) : encode i = op := by
  unfold decode at h
  split at h
  case h_1 =>
    split_ifs at h with hcls hret <;> cases h
    · exact hcls.symm
    · exact hret.symm
  case h_2 hF | h_3 hF | h_11 hF | h_12 hF => cases h; exact wordA_of_fields hF
  case h_4 hF | h_5 hF | h_7 hF | h_8 hF | h_13 hF => cases h; exact wordXI_of_fields hF
  case h_6 hF | h_10 hF =>
    split_ifs at h with hN
    cases h
    exact wordXY_of_fields hF hN
  case h_14 hF => cases h; exact wordXY_of_fields hF rfl
  case h_9 hF => exact encode_of_decode8 hF h
  case h_15 hF => exact encode_of_decodeE hF h
  case h_16 hF => exact encode_of_decodeF hF h
  case h_17 => cases h

/-- Settles O2: no arm of the decoder drops a bit. -/
theorem encodeOfDecodedWord : Obligations.EncodeOfDecodedWord := fun _ _ => encode_of_decode

/-! ## The words that do not decode (R86) -/

/-- The unmapped words as R86 lists them, by the fields of the word. -/
def UnmappedByFamily (op : Word) : Prop :=
  (fieldF op = 0x0 ∧ op.toNat ≠ 0x00E0 ∧ op.toNat ≠ 0x00EE) ∨
  ((fieldF op = 0x5 ∨ fieldF op = 0x9) ∧ (fieldN op).val ≠ 0) ∨
  (fieldF op = 0x8 ∧ (fieldN op).val ∈ [0x8, 0x9, 0xA, 0xB, 0xC, 0xD, 0xF]) ∨
  (fieldF op = 0xE ∧ (fieldNN op).toNat ∉ [0x9E, 0xA1]) ∨
  (fieldF op = 0xF ∧ (fieldNN op).toNat ∉ [0x07, 0x0A, 0x15, 0x18, 0x1E, 0x29, 0x33, 0x55, 0x65])

theorem error_unmapped_eq_error_iff {op : Word} {e : DecodeError} :
    (Except.error (.unmapped op) : Except DecodeError Instr) = .error e ↔ e = .unmapped op := by
  rw [Except.error.injEq, eq_comm]

theorem decode8_eq_error_iff {op : Word} {e : DecodeError} :
    decode8 op = .error e ↔ e = .unmapped op ∧ (fieldN op).val ∈ [0x8, 0x9, 0xA, 0xB, 0xC, 0xD, 0xF] := by
  have hlt := (fieldN op).isLt
  unfold decode8
  split
  case h_10 =>
    rw [error_unmapped_eq_error_iff, iff_self_and]
    simp only [imp_false, List.mem_cons, List.not_mem_nil, or_false] at *
    omega
  all_goals next hN => simp [hN]

theorem decodeE_eq_error_iff {op : Word} {e : DecodeError} :
    decodeE op = .error e ↔ e = .unmapped op ∧ (fieldNN op).toNat ∉ [0x9E, 0xA1] := by
  unfold decodeE
  split
  case h_3 =>
    rw [error_unmapped_eq_error_iff, iff_self_and]
    simp_all
  all_goals next hNN => simp [hNN]

theorem decodeF_eq_error_iff {op : Word} {e : DecodeError} :
    decodeF op = .error e ↔ e = .unmapped op ∧
      (fieldNN op).toNat ∉ [0x07, 0x0A, 0x15, 0x18, 0x1E, 0x29, 0x33, 0x55, 0x65] := by
  unfold decodeF
  split
  case h_10 =>
    rw [error_unmapped_eq_error_iff, iff_self_and]
    simp_all
  all_goals next hNN => simp [hNN]

/-- Decoding fails on the words of R86 alone, and the failure names the word. The six families with unmapped words
come first (`h_1` is family 0); the others have an instruction for every word. -/
theorem decode_eq_error_iff {op : Word} {e : DecodeError} :
    decode op = .error e ↔ e = .unmapped op ∧ UnmappedByFamily op := by
  have hlt : fieldF op < 16 := by have := op.isLt; simp only [fieldF]; omega
  unfold UnmappedByFamily decode
  split
  case h_1 hF =>
    rw [hF]
    split_ifs with hcls hret
    · simp [hcls]
    · simp [hret]
    · rw [← BitVec.toNat_inj] at hcls hret
      rw [error_unmapped_eq_error_iff, iff_self_and]
      exact fun _ => .inl ⟨rfl, hcls, hret⟩
  case h_6 hF | h_10 hF =>
    split_ifs with hN
    · simp [hF, hN]
    · rw [error_unmapped_eq_error_iff]
      simp [hF, hN]
  case h_9 hF => simp [hF, decode8_eq_error_iff]
  case h_15 hF => simp [hF, decodeE_eq_error_iff]
  case h_16 hF => simp [hF, decodeF_eq_error_iff]
  case h_17 => simp only [imp_false] at *; omega
  all_goals next hF => simp [hF]

theorem fieldNN_toNat (op : Word) : (fieldNN op).toNat = op.toNat % 256 := by
  rw [fieldNN, BitVec.toNat_ofNat]; omega

/-- Settles O5: the fields in the lists of R86 are the quotient and the remainders of the word. -/
theorem unmappedWordsByFamily : Obligations.UnmappedWordsByFamily := by
  intro op
  rw [decode_eq_error_iff, and_iff_right rfl, UnmappedByFamily, fieldNN_toNat]
  rfl

/-! ## The decoder and the opcode map (R84, R85) -/

open Laws.EncodingSelectsRow in
/-- The word of an instruction selects the row of the instruction (R85, R90). -/
theorem row_selects_encode : ∀ i : Instr, i.row.selects (encode i) = true
  | .cls => cls | .ret => ret | .jp a => jp a | .call a => call a | .ldI a => ldI a | .jpV0 a => jpV0 a
  | .seImm x b => seImm x b | .sneImm x b => sneImm x b | .ldImm x b => ldImm x b | .addImm x b => addImm x b
  | .rnd x b => rnd x b | .seReg x y => seReg x y | .sneReg x y => sneReg x y | .ldReg x y => ldReg x y
  | .orReg x y => orReg x y | .andReg x y => andReg x y | .xorReg x y => xorReg x y | .addReg x y => addReg x y
  | .subReg x y => subReg x y | .shr x y => shr x y | .subnReg x y => subnReg x y | .shl x y => shl x y
  | .drw x y n => drw x y n | .skp x => skp x | .sknp x => sknp x | .ldVxDt x => ldVxDt x
  | .ldVxK x => ldVxK x | .ldDtVx x => ldDtVx x | .ldStVx x => ldStVx x | .addI x => addI x | .ldF x => ldF x
  | .ldB x => ldB x | .storeRegs x => storeRegs x | .loadRegs x => loadRegs x

/-- Operands do not change the row, so the row of each instruction is that of a sample. -/
theorem row_mem_opcodeMap (i : Instr) : i.row ∈ opcodeMap := by
  cases i <;> simp [opcodeMap, Instr.samples, Instr.row]

/-- A word of the map is one that selects the row of some instruction. -/
theorem wordMapped_iff {op : Word} : wordMapped op = true ↔ ∃ i : Instr, i.row.selects op = true := by
  rw [wordMapped, List.any_eq_true]
  constructor
  · rintro ⟨r, hr, hop⟩
    obtain ⟨i, -, rfl⟩ := List.mem_map.1 hr
    exact ⟨i, hop⟩
  · rintro ⟨i, hop⟩
    exact ⟨i.row, row_mem_opcodeMap i, hop⟩

/-- The instruction that a word decodes to is of the row that the word selects. -/
theorem row_selects_of_decode {op : Word} {i : Instr} (h : decode op = .ok i) : i.row.selects op = true :=
  encode_of_decode h ▸ row_selects_encode i

theorem decode_of_not_wordMapped {op : Word} (h : wordMapped op = false) : decode op = .error (.unmapped op) := by
  cases hd : decode op with
  | ok i => rw [wordMapped_iff.2 ⟨i, row_selects_of_decode hd⟩] at h; cases h
  | error e => rw [(decode_eq_error_iff.1 hd).1]

/-- Settles O3: the decoder has an arm for each row, and the word of its answer is the word decoded. -/
theorem decoderFollowsOpcodeMap : Obligations.DecoderFollowsOpcodeMap := by
  refine fun op => ⟨fun hmapped => ?_, decode_of_not_wordMapped⟩
  obtain ⟨_, hrow⟩ := wordMapped_iff.1 hmapped
  obtain ⟨i, hi⟩ := decode_ok_of_selects hrow
  exact ⟨i, hi, row_selects_of_decode hi⟩

/-! ### The rows do not overlap (R85) -/

/-- A word that selects two rows has the fixed digits of both, so they agree where both masks look. -/
theorem bits_agree_of_selects {r q : OpcodeRow} {op : Word} (hr : r.selects op = true) (hq : q.selects op = true) :
    r.bits &&& q.mask = q.bits &&& r.mask := by
  rw [OpcodeRow.selects, beq_iff_eq] at hr hq
  calc r.bits &&& q.mask = op &&& r.mask &&& q.mask := by rw [hr]
    _ = op &&& q.mask &&& r.mask := by rw [BitVec.and_assoc, BitVec.and_comm r.mask, BitVec.and_assoc]
    _ = q.bits &&& r.mask := by rw [hq]

/-- Two rows of the map whose fixed digits agree where both masks look are one row. -/
theorem eq_of_bits_agree :
    ∀ r ∈ opcodeMap, ∀ q ∈ opcodeMap, r.bits &&& q.mask = q.bits &&& r.mask → r = q := by
  decide

/-- Settles O4: any two different rows of the map differ at a digit that both fix. -/
theorem opcodeRowsNeverOverlap : Obligations.OpcodeRowsNeverOverlap :=
  ⟨rfl, fun _ r hr q hq hrop hqop => eq_of_bits_agree r hr q hq (bits_agree_of_selects hrop hqop)⟩

/-- Settles O6: the decoder runs on each of the words. -/
theorem wordsOfTheSpecDecode : Obligations.WordsOfTheSpecDecode :=
  ⟨rfl, rfl, rfl, rfl, rfl, rfl, rfl, rfl, rfl, rfl, rfl, rfl⟩

end Sys2Proof

namespace Sys2Proof.Machine

/-- A `Step` event that meets a word with no row in the opcode map. -/
theorem stepEvent_of_not_wordMapped {s : State} (hr : s.run = .running) (hp : s.pc.toNat + 1 < 4096)
    (hop : wordMapped (wordOf (s.byte s.pc.toNat) (s.byte (s.pc.toNat + 1))) = false) :
    stepEvent s = execUnmapped (wordOf (s.byte s.pc.toNat) (s.byte (s.pc.toNat + 1))) s := by
  rw [stepEvent_of_running hr, if_pos hp, execWord_of_error (decode_of_not_wordMapped hop)]

/-- Settles O8: the mode decides between moving past the word and recording it. -/
theorem unmappedWordIsNoOpOrStrictFault : Obligations.UnmappedWordIsNoOpOrStrictFault := by
  rintro s op hr hp rfl hop
  have hstep := stepEvent_of_not_wordMapped hr hp hop
  refine ⟨fun hlenient => ?_, fun hstrict => ?_⟩
  · rw [event, hstep, execUnmapped, hlenient]; rfl
  · rw [event, hstep, execUnmapped, hstrict]; rfl

end Sys2Proof.Machine

namespace Sys2Proof.Machine

/-! ## The end of a run (R208) -/

theorem raise_ne_self {s : State} (hr : s.run = .running) (c : Cause) : s.raise c ≠ s := fun h => by
  rw [← h] at hr
  cases hr

theorem advance_ne_self (s : State) : s.advance ≠ s := fun h => by
  have hpc : s.pc + 2 = s.pc := congrArg State.pc h
  bv_omega

/-- Every instruction but the two jumps moves `PC`, moves `SP` or faults, so it changes a running engine. -/
theorem exec_idles_iff {i : Instr} {s : State} (hr : s.run = .running) :
    exec i s = .next s ↔ (∃ nnn, i = .jp nnn ∧ addrImm nnn = s.pc) ∨
      ∃ nnn, i = .jpV0 nnn ∧ offsetTarget nnn (s.reg 0) = s.pc := by
  constructor
  · intro h
    obtain hpc | hpc | ⟨c, hc⟩ | ⟨nnn, hi, hs⟩ | ⟨nnn, hi, hs⟩ | ⟨nnn, -, -, hsp⟩ | ⟨-, hsp⟩ := exec_pc_cases h
    · bv_omega
    · bv_omega
    · exact absurd hc.symm (raise_ne_self hr c)
    · exact .inl ⟨nnn, hi, (congrArg State.pc hs).symm⟩
    · exact .inr ⟨nnn, hi, (congrArg State.pc hs).symm⟩
    · bv_omega
    · bv_omega
  · rintro (⟨nnn, rfl, hpc⟩ | ⟨nnn, rfl, hpc⟩)
    · rw [exec, execJp, hpc]; rfl
    · rw [exec, execJpV0, hpc]; rfl

/-- A running engine idles exactly in a jump to itself: a fetch that faults and an unmapped word change the state. -/
theorem stepEvent_idles_iff_jumpsToItself {s : State} (hr : s.run = .running) :
    stepEvent s = .next s ↔ s.jumpsToItself = true := by
  rw [State.jumpsToItself_iff]
  constructor
  · intro h
    obtain ⟨hne, -⟩ | ⟨-, -, hc⟩ | ⟨-, hp, ⟨_, -, hu⟩ | ⟨i, hd, hx⟩⟩ := stepEvent_cases h
    · exact absurd hr hne
    · exact absurd hc.symm (raise_ne_self hr _)
    · obtain ha | hc := execUnmapped_cases hu
      · exact absurd ha.symm (advance_ne_self s)
      · exact absurd hc.symm (raise_ne_self hr _)
    · obtain ⟨nnn, rfl, hpc⟩ | ⟨nnn, rfl, hpc⟩ := (exec_idles_iff hr).1 hx
      · exact ⟨hp, nnn, .inl ⟨hd, hpc⟩⟩
      · exact ⟨hp, nnn, .inr ⟨hd, hpc⟩⟩
  · rintro ⟨hp, nnn, ⟨hd, hpc⟩ | ⟨hd, hpc⟩⟩
    · rw [stepEvent_of_decode hr hp hd]
      exact (exec_idles_iff hr).2 (.inl ⟨nnn, rfl, hpc⟩)
    · rw [stepEvent_of_decode hr hp hd]
      exact (exec_idles_iff hr).2 (.inr ⟨nnn, rfl, hpc⟩)

theorem stepEvent_idles_iff_runEnd (s : State) : stepEvent s = .next s ↔ s.runEnd ≠ none := by
  cases hr : s.run with
  | running => rw [stepEvent_idles_iff_jumpsToItself hr, State.runEnd_of_running hr]; simp
  | waitingForKey x => simp [stepEvent_of_not_running, State.runEnd_of_waiting, hr]
  | faulted c => simp [stepEvent_of_not_running, State.runEnd_of_faulted, hr]

/-- Two bytes that hold the word of an instruction decode to it. -/
theorem decode_of_bytes {i : Instr} {hi lo : Byte} (hhi : hi = hi8 (encode i)) (hlo : lo = lo8 (encode i)) :
    decode (wordOf hi lo) = .ok i := by
  rw [hhi, hlo, wordOf_hi8_lo8, decode_encode]

/-- 1NNN at the address NNN ends the run there. -/
theorem runEnd_of_jp_to_itself {s : State} {nnn : BitVec 12} (hr : s.run = .running)
    (hpc : s.pc.toNat = nnn.toNat) (hlt : nnn.toNat < 4095) (hhi : s.byte nnn.toNat = hi8 (encode (.jp nnn)))
    (hlo : s.byte (nnn.toNat + 1) = lo8 (encode (.jp nnn))) : s.runEnd = some (.selfJump nnn.toNat) := by
  have htarget : addrImm nnn = s.pc := BitVec.eq_of_toNat_eq ((toNat_addrImm nnn).trans hpc.symm)
  have hself : s.jumpsToItself = true := by
    rw [State.jumpsToItself_iff, hpc]
    exact ⟨by omega, nnn, .inl ⟨decode_of_bytes hhi hlo, htarget⟩⟩
  rw [State.runEnd_of_running hr, if_pos hself, hpc]

/-- Settles O11: the observation is made in exactly the states that `Step` leaves alone, and 1NNN at NNN is one. -/
theorem jumpToSelfIdles : Obligations.JumpToSelfIdles := by
  refine ⟨fun s nnn hr hpc hlt hhi hlo => ?_, stepEvent_idles_iff_runEnd⟩
  have hend := runEnd_of_jp_to_itself hr hpc hlt hhi hlo
  exact ⟨(stepEvent_idles_iff_runEnd s).2 (by simp [hend]), hend⟩

end Sys2Proof.Machine

namespace Sys2Proof.Machine

/-! ## Jumps, calls and returns (spec/40_flow.md) -/

/-- The word of format A as the instruction rules write it is the encoder's. -/
theorem opA_eq_wordA {base : Word} {f : Nat} (hbase : base.toNat = f * 4096) (nnn : BitVec 12) :
    opA base nnn = wordA f nnn := by
  have hnnn := nnn.isLt
  have hb := base.isLt
  apply BitVec.eq_of_toNat_eq
  calc (opA base nnn).toNat = f * 4096 ||| nnn.toNat := by
        rw [opA, BitVec.toNat_or, hbase, BitVec.toNat_setWidth, Nat.mod_eq_of_lt (by omega)]
    _ = f * 4096 + nnn.toNat := or_eq_add_of_lt (k := 12) hnnn
    _ = (wordA f nnn).toNat := (wordA_toNat (by omega) nnn).symm

/-- Settles O32: the words are the encoder's, and neither target needs a reduction. -/
theorem jumpsSetTheProgramCounter : Obligations.JumpsSetTheProgramCounter := by
  refine fun s nnn => ⟨?_, ?_, ⟨_, rfl, rfl, toNat_addrImm nnn⟩, ⟨_, rfl, rfl, toNat_offsetTarget nnn (s.reg 0)⟩⟩
  · rw [opA_eq_wordA (f := 0x1) rfl]; exact decode_encode (.jp nnn)
  · rw [opA_eq_wordA (f := 0xB) rfl]; exact decode_encode (.jpV0 nnn)

/-- A read after two bytes were written in a row. -/
theorem Memory.read_writeList_pair (font : Font) (m : Memory) (a c : Nat) (hi lo : Byte) :
    Memory.read font (Memory.writeList font m a [hi, lo]) c =
      if c = a then hi else if c = a + 1 then lo else Memory.read font m c := by
  simp only [Memory.writeList, Memory.read_write]
  by_cases hc : c = a
  · rw [if_pos hc, if_pos hc, if_neg (by omega)]
  · rw [if_neg hc, if_neg hc]

/-- Settles O33: the push passes its check, and its two stores are inside memory. -/
theorem callPushesItsOwnAddress : Obligations.CallPushesItsOwnAddress := by
  intro s nnn hlo hfit
  rw [exec_call_eq, if_neg (Nat.not_lt.2 hlo), if_pos hfit]
  exact ⟨_, rfl, rfl, toNat_addrImm nnn, fun a => Memory.read_writeList_pair _ _ _ _ _ _⟩

/-- Settles O35: the pop passes its check, and neither the move nor the two reads leave memory. -/
theorem returnResumesAfterStackedAddress : Obligations.ReturnResumesAfterStackedAddress := by
  intro s hne hfit hhi
  have hsp : (s.sp + 2).toNat = s.sp.toNat + 2 := by bv_omega
  rw [exec_ret_eq, if_neg (by omega), hsp, if_pos (by omega)]

/-- What a call leaves behind in a legal state: `SP` one slot down, and its own address in the slot. -/
theorem exec_call_stacks_pc {s t : State} {nnn : BitVec 12} (hlo : s.cfg.stackLo ≤ s.sp.toNat)
    (hfit : s.sp.toNat + 1 < 4096) (h : exec (.call nnn) s = .next t) :
    t.sp = s.sp - 2 ∧ wordOf (t.byte s.sp.toNat) (t.byte (s.sp.toNat + 1)) = s.pc := by
  obtain ⟨t', ht', hframe, -, hbyte⟩ := callPushesItsOwnAddress s nnn hlo hfit
  obtain rfl : t' = t := Host.Outcome.next.inj (ht'.symm.trans h)
  refine ⟨congrArg State.sp hframe, ?_⟩
  rw [hbyte, hbyte, if_pos rfl, if_neg (Nat.succ_ne_self _), if_pos rfl]
  exact wordOf_hi8_lo8 s.pc

/-- Settles O37: the return pops the slot that the call pushed, and finds the call's address in it. -/
theorem callThenReturnResumesAfterCall : Obligations.CallThenReturnResumesAfterCall := by
  intro s t u nnn hs hlo hcall hcfg husp hhi hlow
  obtain ⟨depth, -, hdepth⟩ := hs.stack
  obtain ⟨hfont, -, hprog, -, -⟩ := hs.config
  obtain ⟨htsp, hpc⟩ := exec_call_stacks_pc hlo (by omega) hcall
  have hslot : u.sp + 2 = s.sp := by rw [husp, htsp, BitVec.sub_add_cancel]
  have hsp : u.sp.toNat + 2 = s.sp.toNat := by bv_omega
  rw [returnResumesAfterStackedAddress u (by rw [hcfg]; omega) (by omega) (by rw [hcfg]; omega), hsp,
    show u.sp.toNat + 3 = s.sp.toNat + 1 by omega, hhi, hlow, hpc, hslot]

end Sys2Proof.Machine

namespace Sys2Proof.Machine

/-! ## Conditional skips (spec/41_skip.md) -/

/-- A digit put into a gap of zeros by `|||` is added. -/
theorem add_or_digit_eq {a d n j k : Nat} (hn : n < 2 ^ k) (hd : d * 2 ^ k + n < 2 ^ j) :
    a * 2 ^ j + n ||| d * 2 ^ k = a * 2 ^ j + (d * 2 ^ k + n) := by
  rw [← or_eq_add_of_lt (a := a) (b := n) (by omega), Nat.or_assoc, Nat.or_comm n, or_eq_add_of_lt hn,
    or_eq_add_of_lt hd]

/-- A register's digit, shifted into its place in a word. -/
theorem toNat_ofNat_regNum_shiftLeft (x : RegNum) {k : Nat} (hk : k ≤ 12) :
    (BitVec.ofNat 16 x.val <<< k).toNat = x.val * 2 ^ k := by
  have hlt : x.val * 2 ^ k < 2 ^ 4 * 2 ^ 12 :=
    Nat.mul_lt_mul_of_lt_of_le x.isLt (Nat.pow_le_pow_right (n := 2) (by decide) hk) (by decide)
  rw [BitVec.toNat_shiftLeft, BitVec.toNat_ofNat, Nat.shiftLeft_eq, Nat.mod_eq_of_lt (a := x.val) (by omega)]
  exact Nat.mod_eq_of_lt hlt

/-- The word of format XS, `n` being the low byte of the base. -/
theorem toNat_opXS {base : Word} {f n : Nat} (hn : n < 256) (hbase : base.toNat = f * 4096 + n) (x : RegNum) :
    (opXS base x).toNat = (f * 16 + x.val) * 2 ^ 8 + n := by
  rw [opXS, BitVec.toNat_or, hbase, toNat_ofNat_regNum_shiftLeft x (by decide)]
  calc f * 2 ^ 12 + n ||| x.val * 2 ^ 8 = f * 2 ^ 12 + (x.val * 2 ^ 8 + n) := add_or_digit_eq hn (by omega)
    _ = (f * 16 + x.val) * 2 ^ 8 + n := by omega

/-- The word of format XI as the instruction rules write it is the encoder's. -/
theorem opXI_eq_wordXI {base : Word} {f : Nat} (hbase : base.toNat = f * 4096) (x : RegNum) (nn : Byte) :
    opXI base x nn = wordXI f x nn := by
  have hb := base.isLt
  apply BitVec.eq_of_toNat_eq
  calc (opXI base x nn).toNat = (f * 16 + x.val) * 2 ^ 8 ||| nn.toNat := by
        rw [opXI, ← opXS, BitVec.toNat_or, toNat_opXS (n := 0) (by decide) (hbase.trans (Nat.add_zero _).symm),
          Nat.add_zero, BitVec.toNat_setWidth_of_le (by decide)]
    _ = (f * 16 + x.val) * 2 ^ 8 + nn.toNat := or_eq_add_of_lt nn.isLt
    _ = (wordXI f x nn).toNat := by rw [wordXI_toNat (by omega)]; omega

/-- The word of format XY as the instruction rules write it is the encoder's; the low nibble is the base's. -/
theorem opXY_eq_wordXY {base : Word} {f n : Nat} (hn : n < 16) (hbase : base.toNat = f * 4096 + n) (x y : RegNum) :
    opXY base x y = wordXY f x y n := by
  have hb := base.isLt
  apply BitVec.eq_of_toNat_eq
  calc (opXY base x y).toNat = (f * 16 + x.val) * 2 ^ 8 + n ||| y.val * 2 ^ 4 := by
        rw [opXY, ← opXS, BitVec.toNat_or, toNat_opXS (by omega) hbase, toNat_ofNat_regNum_shiftLeft y (by decide)]
    _ = (f * 16 + x.val) * 2 ^ 8 + (y.val * 2 ^ 4 + n) := add_or_digit_eq hn (by omega)
    _ = (wordXY f x y n).toNat := by rw [wordXY_toNat (by omega) hn]; omega

/-- A skip moves `PC` by 4 when the condition that its Boolean test decides holds, else by 2. -/
theorem skipIf_of_iff {s : State} {cond : Bool} {p : Prop} [Decidable p] (h : cond = true ↔ p) :
    skipIf s cond = .next { s with pc := s.pc + (if p then 4 else 2) } := by
  simp only [skipIf_eq, h, apply_ite (s.pc + ·)]

/-- Settles O38: the words are the encoder's, and each of the four is `skipIf` on the test of its rule. -/
theorem registerSkips : Obligations.RegisterSkips := by
  refine fun s x y nn => ⟨?_, ?_, ?_, ?_, skipIf_of_iff beq_iff_eq, skipIf_of_iff bne_iff_ne,
    skipIf_of_iff beq_iff_eq, skipIf_of_iff bne_iff_ne⟩
  · rw [opXI_eq_wordXI (f := 0x3) rfl]; exact decode_encode (.seImm x nn)
  · rw [opXI_eq_wordXI (f := 0x4) rfl]; exact decode_encode (.sneImm x nn)
  · rw [opXY_eq_wordXY (f := 0x5) (n := 0x0) (by decide) rfl]; exact decode_encode (.seReg x y)
  · rw [opXY_eq_wordXY (f := 0x9) (n := 0x0) (by decide) rfl]; exact decode_encode (.sneReg x y)

end Sys2Proof.Machine

namespace Sys2Proof.Machine

/-! ## Loads, arithmetic, logic, shifts and the random byte (spec/42_alu.md) -/

/-! ### The results and the flags as numbers (R22, R133) -/

theorem toNat_sum8 (a b : Byte) : (sum8 a b).toNat = (a.toNat + b.toNat) % 256 :=
  BitVec.toNat_ofNat _ _

/-- The residue of a difference: with the borrow it is 256 too large (R127, R129). -/
theorem toNat_diff8_add (a b : Byte) :
    (diff8 a b).toNat + b.toNat = a.toNat + (if a.toNat ≥ b.toNat then 0 else 256) := by
  have ha := a.isLt
  have hb := b.isLt
  rw [diff8, BitVec.toNat_ofInt]
  split <;> omega

theorem toNat_shiftRight1 (a : Byte) : (shiftRight1 a).toNat = a.toNat / 2 := by
  have := a.isLt
  rw [shiftRight1, BitVec.toNat_ofNat]
  omega

theorem toNat_shiftLeft1 (a : Byte) : (shiftLeft1 a).toNat = a.toNat * 2 % 256 :=
  BitVec.toNat_ofNat _ _

theorem toNat_lowBitFlag (a : Byte) : (lowBitFlag a).toNat = a.toNat % 2 := by
  rw [lowBitFlag, BitVec.toNat_ofNat]
  omega

theorem toNat_highBitFlag (a : Byte) : (highBitFlag a).toNat = a.toNat / 128 := by
  have := a.isLt
  rw [highBitFlag, BitVec.toNat_ofNat]
  omega

theorem flagOf_decide (p : Prop) [Decidable p] : flagOf (decide p) = if p then 1 else 0 := by
  simp only [flagOf, decide_eq_true_eq]

/-! ### The registers after an instruction that writes one, or the flag and then one (R24) -/

theorem reg_setReg_of_ne {s : State} {x k : RegNum} (b : Byte) (hk : k ≠ x) : (s.setReg x b).reg k = s.reg k := by
  rw [State.reg_setReg, if_neg hk]

theorem reg_setReg_self (s : State) (x : RegNum) (b : Byte) : (s.setReg x b).reg x = b := by
  rw [State.reg_setReg, if_pos rfl]

/-- The result stays also with `x = 15` (D8); the flag is in `VF` otherwise; no third register changes. -/
theorem regs_after_setFlagThenReg (s : State) (x : RegNum) (f r : Byte) :
    (s.setFlagThenReg x f r).advance.reg x = r ∧
    (x ≠ flagReg → (s.setFlagThenReg x f r).advance.reg flagReg = f) ∧
    ∀ k, k ≠ x → k ≠ flagReg → (s.setFlagThenReg x f r).advance.reg k = s.reg k := by
  refine ⟨?_, fun hx => reg_flagReg_after_setFlagThenReg hx rfl, fun k hx hf => ?_⟩
  · rw [State.reg_advance, State.reg_setFlagThenReg, if_pos rfl]
  · rw [State.reg_advance, State.reg_setFlagThenReg, if_neg hx, if_neg hf]

/-- Settles O43: the residue and the NOT borrow flag of each difference, taken both ways round. -/
theorem subtractionsSetNoBorrow : Obligations.SubtractionsSetNoBorrow := by
  intro s x y
  constructor
  · obtain ⟨hres, hflag, hrest⟩ := regs_after_setFlagThenReg s x (noBorrowFlag (s.reg x) (s.reg y))
      (diff8 (s.reg x) (s.reg y))
    exact ⟨_, rfl, rfl, by rw [hres, toNat_diff8_add], fun hx => (hflag hx).trans (flagOf_decide _), hrest⟩
  · obtain ⟨hres, hflag, hrest⟩ := regs_after_setFlagThenReg s x (noBorrowFlag (s.reg y) (s.reg x))
      (diff8 (s.reg y) (s.reg x))
    exact ⟨_, rfl, rfl, by rw [hres, toNat_diff8_add], fun hx => (hflag hx).trans (flagOf_decide _), hrest⟩

/-- Settles O44: the shifted value and the bit it loses, and `exec` does not look at the `Y` field. -/
theorem shiftsMoveOneBitIntoTheFlag : Obligations.ShiftsMoveOneBitIntoTheFlag := by
  refine fun s x y z => ⟨?_, ?_, rfl, rfl⟩
  · obtain ⟨hres, hflag, hrest⟩ := regs_after_setFlagThenReg s x (lowBitFlag (s.reg x)) (shiftRight1 (s.reg x))
    exact ⟨_, rfl, rfl, by rw [hres, toNat_shiftRight1], fun hx => by rw [hflag hx, toNat_lowBitFlag], hrest⟩
  · obtain ⟨hres, hflag, hrest⟩ := regs_after_setFlagThenReg s x (highBitFlag (s.reg x)) (shiftLeft1 (s.reg x))
    exact ⟨_, rfl, rfl, by rw [hres, toNat_shiftLeft1], fun hx => by rw [hflag hx, toNat_highBitFlag], hrest⟩

/-- Settles O42: the sum and the carry flag. -/
theorem addSetsCarry : Obligations.AddSetsCarry := by
  intro s x y
  obtain ⟨hres, hflag, hrest⟩ := regs_after_setFlagThenReg s x (carryFlag (s.reg x) (s.reg y))
    (sum8 (s.reg x) (s.reg y))
  exact ⟨_, rfl, rfl, by rw [hres, toNat_sum8], fun hx => (hflag hx).trans (flagOf_decide _), hrest⟩

/-! ### The instructions without a flag -/

/-- A word of format XI as the instruction rules write it decodes to the instruction it encodes. -/
theorem decode_opXI {i : Instr} {base : Word} {f : Nat} {x : RegNum} {nn : Byte} (hi : encode i = wordXI f x nn)
    (hbase : base.toNat = f * 4096) : decode (opXI base x nn) = .ok i := by
  rw [opXI_eq_wordXI hbase, ← hi, decode_encode]

/-- A word of format XY as the instruction rules write it decodes to the instruction it encodes. -/
theorem decode_opXY {i : Instr} {base : Word} {f n : Nat} {x y : RegNum} (hi : encode i = wordXY f x y n)
    (hn : n < 16) (hbase : base.toNat = f * 4096 + n) : decode (opXY base x y) = .ok i := by
  rw [opXY_eq_wordXY hn hbase, ← hi, decode_encode]

/-- Settles O40: the words are the encoder's, and each of the two writes `V[X]` alone. -/
theorem immediateLoadAndAdd : Obligations.ImmediateLoadAndAdd := by
  refine fun s x nn => ⟨decode_opXI rfl rfl, decode_opXI rfl rfl,
    ⟨_, rfl, rfl, fun k => State.reg_setReg s x k nn⟩, ⟨_, rfl, rfl, ?_, fun k => reg_setReg_of_ne _⟩⟩
  rw [State.reg_advance, reg_setReg_self, toNat_sum8]

/-- Settles O41: the words are the encoder's, and each of the four writes `V[X]` alone. -/
theorem copyAndLogicLeaveTheFlag : Obligations.CopyAndLogicLeaveTheFlag := fun s x _ =>
  ⟨decode_opXY rfl (by decide) rfl, decode_opXY rfl (by decide) rfl, decode_opXY rfl (by decide) rfl,
    decode_opXY rfl (by decide) rfl, ⟨_, rfl, rfl, fun k => State.reg_setReg s x k _⟩,
    ⟨_, rfl, rfl, fun k => State.reg_setReg s x k _⟩, ⟨_, rfl, rfl, fun k => State.reg_setReg s x k _⟩,
    ⟨_, rfl, rfl, fun k => State.reg_setReg s x k _⟩⟩

/-- Settles O45: what `V[X]` holds is the draw under the mask, whatever byte was drawn. -/
theorem randomByteIsMasked : Obligations.RandomByteIsMasked := by
  intro s x nn
  refine ⟨_, rfl, rfl, ?_⟩
  have hreg : (s.draw.2.setReg x (s.draw.1 &&& nn)).advance.reg x = Config.draw s.draws &&& nn :=
    reg_setReg_self s.draw.2 x _
  rw [hreg]
  refine ⟨rfl, ?_, ?_, fun k => reg_setReg_of_ne _⟩
  · rw [BitVec.and_assoc, BitVec.and_not_self]; exact BitVec.and_zero
  · rw [BitVec.toNat_and]; exact Nat.and_le_right

end Sys2Proof.Machine

namespace Sys2Proof.Machine

/-! ## The index register and memory transfer (spec/43_index_memory.md) -/

/-! ### The instructions that write `I` alone (R140 to R142) -/

/-- A word of format XS as the instruction rules write it decodes to the instruction it encodes. -/
theorem decode_opXS {i : Instr} {base : Word} {f n : Nat} {x : RegNum} (hi : encode i = wordXS f x n)
    (hn : n < 256) (hbase : base.toNat = f * 4096 + n) : decode (opXS base x) = .ok i := by
  have hb := base.isLt
  have hword : opXS base x = wordXS f x n := by
    apply BitVec.eq_of_toNat_eq
    rw [toNat_opXS hn hbase, wordXS_toNat (by omega) hn]
    omega
  rw [hword, ← hi, decode_encode]

/-- `I` holds an address of 16 bits as it is. -/
theorem toNat_i_setI (s : State) {a : Nat} (ha : a < 65536) : (s.setI a).i.toNat = a := by
  rw [State.i_setI, BitVec.toNat_ofNat, Nat.mod_eq_of_lt ha]

/-- Settles O46: the words are the encoder's, and each of the two writes `I` alone. -/
theorem indexLoadAndAdd : Obligations.IndexLoadAndAdd := by
  refine fun s nnn x => ⟨?_, decode_opXS rfl (by decide) rfl, ⟨_, rfl, rfl, toNat_addrImm nnn⟩,
    ⟨_, rfl, rfl, BitVec.toNat_ofNat _ _⟩⟩
  rw [opA_eq_wordA (f := 0xA) rfl]; exact decode_encode (.ldI nnn)

/-- Settles O47: five times a byte needs no reduction. -/
theorem glyphAddressIsFiveTimesTheDigit : Obligations.GlyphAddressIsFiveTimesTheDigit := by
  intro s x
  have hx := (s.reg x).isLt
  have hfit : glyphAddr (s.reg x) < 65536 := by rw [glyphAddr]; omega
  exact ⟨_, rfl, rfl, toNat_i_setI s hfit⟩

/-! ### Runs of bytes stored at an address (R143, R144) -/

/-- The `k`-th byte of a stored run lies `k` above its start. -/
theorem Memory.read_writeList_inside (font : Font) (m : Memory) (a : Nat) {bs : List Byte} {k : Nat}
    (hk : k < bs.length) : Memory.read font (Memory.writeList font m a bs) (a + k) = bs.getD k 0 := by
  rw [Memory.read_writeList, if_pos (by omega), Nat.add_sub_cancel_left]

/-- Below and above a stored run nothing changes. -/
theorem Memory.read_writeList_outside (font : Font) (m : Memory) {a c : Nat} {bs : List Byte}
    (hout : c < a ∨ a + bs.length ≤ c) :
    Memory.read font (Memory.writeList font m a bs) c = Memory.read font m c := by
  rw [Memory.read_writeList, if_neg (by omega)]

/-- Settles O48: the run FX33 stores is the three digits, which are the byte again. -/
theorem bcdStoresThreeDigits : Obligations.BcdStoresThreeDigits := by
  intro s x hfit
  have hx := (s.reg x).isLt
  have hlen : (bcdDigits (s.reg x)).length = 3 := rfl
  rw [exec_ldB_eq, if_pos (by omega)]
  refine ⟨_, rfl, rfl, ⟨(s.reg x).toNat / 100, (s.reg x).toNat / 10 % 10, (s.reg x).toNat % 10, by omega,
    by omega, by omega, by omega, ?_, ?_, ?_⟩, fun a ha => ?_⟩
  · exact Memory.read_writeList_inside _ _ _ (k := 0) (by omega)
  · exact Memory.read_writeList_inside _ _ _ (k := 1) (by omega)
  · exact Memory.read_writeList_inside _ _ _ (k := 2) (by omega)
  · exact Memory.read_writeList_outside _ _ (by omega)

/-- Settles O49: the run FX55 stores is the registers up to `VX`. -/
theorem storeRegistersAtIndex : Obligations.StoreRegistersAtIndex := by
  intro s x hfit
  have hlen := length_regsUpTo s x
  rw [exec_storeRegs_eq, if_pos hfit]
  refine ⟨_, rfl, rfl, toNat_i_setI s (by omega), fun k hk => ?_, fun a ha => ?_⟩
  · rw [← getD_regsUpTo s hk]
    exact Memory.read_writeList_inside _ _ _ (hlen ▸ Nat.lt_succ_of_le hk)
  · exact Memory.read_writeList_outside _ _ (by omega)

/-! ### Registers loaded from memory, and runs that leave it (R145, R182) -/

/-- Settles O50: of the loaded bytes there is one for each register up to `VX`. -/
theorem loadRegistersFromIndex : Obligations.LoadRegistersFromIndex := by
  intro s x hfit
  rw [exec_loadRegs_eq, if_pos hfit]
  refine ⟨_, rfl, ?_, ?_, fun k => ?_, fun a => ?_⟩
  · simp only [State.advance, State.setI, State.setRegs]
  · rw [State.i_advance, toNat_i_setI _ (by omega), Nat.add_assoc]
  · rw [State.reg_advance, State.reg_setI, State.reg_setRegs, getD_loaded]
  · rw [State.byte_advance, State.byte_setI, State.byte_setRegs]

/-- Settles O51: the run of bytes does not fit, and fault entry writes `RUN` alone. -/
theorem indexOverrunFaultsAtFirstAddress : Obligations.IndexOverrunFaultsAtFirstAddress := by
  refine fun s x => ⟨fun h => ?_, fun h => ⟨?_, ?_⟩⟩
  · rw [exec_ldB_eq, if_neg (by omega), State.raise]
  · rw [exec_storeRegs_eq, if_neg (by omega), State.raise]
  · rw [exec_loadRegs_eq, if_neg (by omega), State.raise]

/-- Settles O52: FX65 reads what FX55 stored, from where it stored it, and both leave the same `I`. -/
theorem storeThenLoadRestoresRegisters : Obligations.StoreThenLoadRestoresRegisters := by
  intro s t u x hfit hstore hui hkept
  obtain ⟨t', ht', -, hti, hstored, -⟩ := storeRegistersAtIndex s x hfit
  obtain rfl : t' = t := Host.Outcome.next.inj (ht'.symm.trans hstore)
  obtain ⟨w, hw, -, hwi, hloaded, -⟩ := loadRegistersFromIndex u x (by rw [hui]; exact hfit)
  refine ⟨w, hw, BitVec.eq_of_toNat_eq (by rw [hwi, hti, hui]), fun k => ?_⟩
  rw [hloaded, hui]
  refine ite_congr rfl (fun hk => ?_) fun _ => rfl
  calc u.byte (s.i.toNat + k.val) = t'.byte (s.i.toNat + k.val) := hkept k hk
    _ = s.reg k := hstored k hk

end Sys2Proof.Machine

namespace Sys2Proof.Machine

/-! ## The display (spec/44_display.md) -/

/-! ### DXYN when everything it accesses is in memory (R154) -/

theorem flagOf_eq_zero_or_one (c : Bool) : flagOf c = 0 ∨ flagOf c = 1 := by
  cases c
  · exact .inl rfl
  · exact .inr rfl

theorem flagOf_eq_one_iff (c : Bool) : flagOf c = 1 ↔ c = true := by
  cases c <;> decide

theorem find_overrun_eq_none_iff (l : List Nat) :
    l.find? (fun a => 4096 ≤ a) = none ↔ ∀ a ∈ l, a < 4096 := by
  simp only [List.find?_eq_none, decide_eq_true_eq, Nat.not_le]

/-- DXYN whose accesses are all in memory draws the whole sprite. -/
theorem exec_drw_of_in_memory {s : State} {x y : RegNum} {n : Fin 16} (h : ∀ a ∈ drawAccesses s x y n, a < 4096) :
    ∃ u hit, exec (.drw x y n) s = .next (u.setReg flagReg (flagOf hit)).advance ∧
      RowDrawn s u hit (spriteCovers s x y n) := by
  have hc := exec_drw_cases s x y n
  rwa [(find_overrun_eq_none_iff _).2 h] at hc

/-- A 1-bit of a sprite that is drawn lies over a pixel of the display. -/
theorem lt_of_spriteCovers {s : State} {x y : RegNum} {n : Fin 16} {p : Nat}
    (h : ∀ a ∈ drawAccesses s x y n, a < 4096) (hp : spriteCovers s x y n p = true) : p < 2048 := by
  have := h _ (List.mem_append_right _ (mem_rowsAccesses_of_spriteCovers hp))
  omega

/-- Settles O54: `RowDrawn` says it of the rows, and `VF` is the one register written after them. -/
theorem drawXorsSpritePixels : Obligations.DrawXorsSpritePixels := by
  intro s x y n h
  obtain ⟨u, hit, he, hu⟩ := exec_drw_of_in_memory h
  have hflag : (u.setReg flagReg (flagOf hit)).advance.reg flagReg = flagOf hit := reg_setReg_self u _ _
  refine ⟨_, he, by rw [hu.rest]; rfl, fun p _ => hu.pixel p, hu.outside, ?_, ?_, fun k hk => ?_⟩
  · rw [hflag]; exact flagOf_eq_zero_or_one hit
  · rw [hflag, flagOf_eq_one_iff, hu.hit]
    exact exists_congr fun p =>
      ⟨fun ⟨hc, hl⟩ => ⟨lt_of_spriteCovers h hc, hc, hl⟩, fun ⟨_, hc, hl⟩ => ⟨hc, hl⟩⟩
  · rw [State.reg_advance, reg_setReg_of_ne _ hk, hu.rest]; rfl

/-! ### DXYN at the edge of memory (R154, R182) -/

/-- Settles O55: the faulting case of `exec_drw_cases`, and fault entry writes `RUN` alone. -/
theorem drawFaultsAtFirstOverrun : Obligations.DrawFaultsAtFirstOverrun := by
  intro s x y n a h
  have hc := exec_drw_cases s x y n
  rwa [h] at hc

/-- DXYN always answers a state, and that is fault-free exactly when every access is in memory. -/
theorem exec_drw_isFaulted_iff {s : State} (x y : RegNum) (n : Fin 16) (hs : s.isFaulted = false) :
    ∃ t, exec (.drw x y n) s = .next t ∧ (t.isFaulted = false ↔ ∀ a ∈ drawAccesses s x y n, a < 4096) := by
  by_cases h : ∀ a ∈ drawAccesses s x y n, a < 4096
  · obtain ⟨t, ht, hframe, -⟩ := drawXorsSpritePixels s x y n h
    exact ⟨t, ht, iff_of_true (by rw [hframe]; exact hs) h⟩
  · obtain ⟨a, ha⟩ := Option.ne_none_iff_exists'.1 (mt (find_overrun_eq_none_iff _).1 h)
    exact ⟨_, drawFaultsAtFirstOverrun s x y n a ha, iff_of_false (by simp [State.isFaulted]) h⟩

/-- One row is in memory exactly up to the last offset of its alignment (D17). -/
theorem rowAccesses_in_memory_iff (b : Nat) :
    (∀ a ∈ rowAccesses b, a < 4096) ↔ b ≤ if b % 8 = 0 then 2040 else 2039 := by
  unfold rowAccesses
  split
  · rw [List.forall_mem_singleton]; omega
  · rw [List.forall_mem_cons, List.forall_mem_singleton]; omega

/-- Rows are in memory exactly when the last of them is: they are equally aligned and go down the display. -/
theorem rowsAccesses_in_memory_iff (b m : Nat) :
    (∀ a ∈ rowsAccesses b (m + 1), a < 4096) ↔ b + 64 * m ≤ if b % 8 = 0 then 2040 else 2039 := by
  have hrow (r : Nat) : (∀ a ∈ rowAccesses (b + 64 * r), a < 4096) ↔
      b + 64 * r ≤ if b % 8 = 0 then 2040 else 2039 := by
    rw [rowAccesses_in_memory_iff, show (b + 64 * r) % 8 = b % 8 by omega]
  rw [← hrow m]
  constructor
  · exact fun h a ha => h a (List.mem_flatMap.2 ⟨m, List.self_mem_range_succ, ha⟩)
  · intro h a ha
    obtain ⟨r, hr, ha⟩ := List.mem_flatMap.1 ha
    have hm := (hrow m).1 h
    have hle := List.mem_range.1 hr
    exact (hrow r).2 (by omega) a ha

/-- A sprite in memory leaves the framebuffer bytes to decide. -/
theorem drawAccesses_in_memory_iff {s : State} {x y : RegNum} {n : Fin 16} (h : s.i.toNat + n.val ≤ 4096) :
    (∀ a ∈ drawAccesses s x y n, a < 4096) ↔
      ∀ a ∈ rowsAccesses ((s.reg x).toNat + 64 * (s.reg y).toNat) n.val, a < 4096 := by
  rw [drawAccesses, List.forall_mem_append]
  refine and_iff_right fun a ha => ?_
  obtain ⟨r, hr, rfl⟩ := List.mem_map.1 ha
  have := List.mem_range.1 hr
  omega

/-- Settles O56: fault-free means every access is in memory, which the last row decides. -/
theorem drawCompletesAboveTheBottomEdge : Obligations.DrawCompletesAboveTheBottomEdge := by
  intro s x y n hs hn hi
  obtain ⟨t, ht, hiff⟩ := exec_drw_isFaulted_iff x y n hs
  have hlast : t.isFaulted = false ↔ (s.reg x).toNat + 64 * ((s.reg y).toNat + (n.val - 1)) ≤
      if (s.reg x).toNat % 8 = 0 then 2040 else 2039 := by
    rw [hiff, drawAccesses_in_memory_iff hi, show n.val = n.val - 1 + 1 by omega, rowsAccesses_in_memory_iff,
      Nat.add_sub_cancel, Nat.mul_add, Nat.add_assoc,
      show ((s.reg x).toNat + 64 * (s.reg y).toNat) % 8 = (s.reg x).toNat % 8 by omega]
  refine ⟨t, ht, hlast, fun hx => hlast.trans ?_⟩
  split <;> omega

/-! ### Drawing twice (R154, S9) -/

/-- What DXYN accesses depends on `I` and on the values of its two registers. -/
theorem drawAccesses_congr {s u : State} {x y x' y' : RegNum} (n : Fin 16) (hi : u.i = s.i)
    (hx : u.reg x' = s.reg x) (hy : u.reg y' = s.reg y) : drawAccesses u x' y' n = drawAccesses s x y n := by
  simp only [drawAccesses, hi, hx, hy]

/-- What a sprite covers depends on its bytes and on the values of the two registers. -/
theorem spriteCovers_congr {s u : State} {x y x' y' : RegNum} {n : Fin 16} (hi : u.i = s.i)
    (hx : u.reg x' = s.reg x) (hy : u.reg y' = s.reg y)
    (hb : ∀ r, r < n.val → u.byte (s.i.toNat + r) = s.byte (s.i.toNat + r)) (p : Nat) :
    spriteCovers u x' y' n p = spriteCovers s x y n p := by
  rw [Bool.eq_iff_iff]
  simp only [spriteCovers, List.any_eq_true, List.mem_range, hi, hx, hy]
  exact exists_congr fun r => and_congr_right fun hr => by rw [hb r hr]

theorem State.pixel_congr {s u : State} (h : ∀ a, u.byte a = s.byte a) (p : Nat) : u.pixel p = s.pixel p := by
  rw [State.pixel, State.pixel, h]

/-- Memory is the bytes outside the framebuffer and the 2048 pixels. -/
theorem byte_eq_of_outside_of_pixel {s t : State} (hout : ∀ a, a < 3840 ∨ 4096 ≤ a → t.byte a = s.byte a)
    (hpix : ∀ p, p < 2048 → t.pixel p = s.pixel p) (a : Nat) : t.byte a = s.byte a := by
  by_cases ha : a < 3840 ∨ 4096 ≤ a
  · exact hout a ha
  · obtain ⟨k, rfl⟩ : ∃ k, a = 3840 + k := ⟨a - 3840, by omega⟩
    exact byte_eq_of_pixel_eq fun p hp => hpix p (by omega)

/-- Settles O57: both draws XOR with the same sprite, so the second finds each covered pixel inverted. -/
theorem drawTwiceRestoresTheFramebuffer : Obligations.DrawTwiceRestoresTheFramebuffer := by
  intro s t u x y x' y' n hfit hdraw hu hi hx hy hsprite
  obtain ⟨t', ht', -, htpix, htout, -⟩ := drawXorsSpritePixels s x y n hfit
  obtain rfl : t' = t := Host.Outcome.next.inj (ht'.symm.trans hdraw)
  have hcov := spriteCovers_congr (n := n) hi hx hy fun r hr => (hu _).trans (hsprite r hr)
  have hupix (p : Nat) (hp : p < 2048) : u.pixel p = (s.pixel p ^^ spriteCovers s x y n p) := by
    rw [State.pixel_congr hu, htpix p hp]
  obtain ⟨w, hw, -, hwpix, hwout, hflag, hhit, -⟩ :=
    drawXorsSpritePixels u x' y' n (drawAccesses_congr n hi hx hy ▸ hfit)
  refine ⟨w, hw, byte_eq_of_outside_of_pixel (fun a ha => ?_) (fun p hp => ?_), hflag, hhit.trans ?_⟩
  · rw [hwout a ha, hu, htout a ha]
  · rw [hwpix p hp, hupix p hp, hcov, Bool.xor_assoc, Bool.xor_self, Bool.xor_false]
  · refine exists_congr fun p => and_congr_right fun hp => ?_
    rw [hcov, hupix p hp]
    refine and_congr_right fun hc => ?_
    rw [hc, Bool.xor_true, Bool.not_eq_true']

/-! ### The snapshot and its encoder (R150, R156) -/

/-- A row of the snapshot is the 64 pixels of that row. -/
theorem getD_snapshot (s : State) {r : Nat} (hr : r < 32) :
    s.snapshot.getD r [] = (List.range 64).map fun c => s.pixelAt c r := by
  simp [State.snapshot, List.getD_eq_getElem?_getD, hr]

/-- The `j`-th mask of the encoder is bit `7 - j` alone. -/
theorem getLsbD_pixelMask {i : Nat} (hi : i < 8) (j : Nat) :
    ((0x80 >>> j : Nat) : Byte).getLsbD i = decide (j + i = 7) := by
  rw [BitVec.natCast_eq_ofNat, BitVec.getLsbD_ofNat, Nat.testBit_shiftRight, show 0x80 = 2 ^ 7 from rfl,
    Nat.testBit_two_pow]
  simp [hi, eq_comm]

/-- The bits after the first `m` pixels are packed: pixel `j` is bit `7 - j`. -/
theorem getLsbD_foldl_pack (g : Nat → Bool) {i : Nat} (hi : i < 8) (m : Nat) :
    ((List.range m).foldl (fun (b : Byte) j => if g j then b ||| (0x80 >>> j) else b) 0).getLsbD i =
      (decide (7 - i < m) && g (7 - i)) := by
  induction m with
  | zero => simp
  | succ m ih =>
    rw [List.range_succ, List.foldl_append, List.foldl_cons, List.foldl_nil, apply_ite (BitVec.getLsbD · i),
      BitVec.getLsbD_or, ih, getLsbD_pixelMask hi]
    by_cases hm : m + i = 7
    · obtain rfl : m = 7 - i := by omega
      simp [hm]
    · have hlt : 7 - i < m + 1 ↔ 7 - i < m := by omega
      simp [hm, hlt]

/-- The encoder gives a byte back from its pixels, leftmost first. -/
theorem packPixels_bits (b : Byte) : packPixels ((List.range 8).map fun j => b.getLsbD (7 - j)) = b := by
  apply BitVec.eq_of_getLsbD_eq
  intro i hi
  rw [packPixels, getLsbD_foldl_pack _ hi]
  simp [List.getD_eq_getElem?_getD, show 7 - i < 8 by omega, show 7 - (7 - i) = i by omega]

/-- Settles O58: row `r` starts at the byte `8r` of the framebuffer, and byte `k` is the pixels from `8k` on. -/
theorem snapshotDecodesTheFramebuffer : Obligations.SnapshotDecodesTheFramebuffer := by
  refine fun s => ⟨by simp [State.snapshot], fun r hr => ?_, fun r c hr hc => ?_, fun k _ => ?_⟩
  · rw [getD_snapshot s hr, List.length_map, List.length_range]
  · rw [getD_snapshot s hr]
    simp only [List.getD_eq_getElem?_getD, List.getElem?_map, List.getElem?_range hc, Option.map_some,
      Option.getD_some, State.pixelAt, State.pixel, Config.fbWidth, Config.fbBase]
    rw [show 3840 + (c + 64 * r) / 8 = 3840 + 8 * r + c / 8 by omega, show (c + 64 * r) % 8 = c % 8 by omega]
  · rw [← packPixels_bits (s.byte (3840 + k))]
    refine congrArg packPixels (List.map_congr_left fun j hj => ?_)
    have := List.mem_range.1 hj
    rw [State.pixel, Config.fbBase, show (8 * k + j) / 8 = k by omega, show (8 * k + j) % 8 = j by omega]

/-! ### 00E0 (R153) -/

/-- Settles O53: the fill covers exactly the framebuffer. -/
theorem clearScreenZeroesTheFramebuffer : Obligations.ClearScreenZeroesTheFramebuffer := by
  refine ⟨decode_encode .cls, fun s => ⟨_, exec_cls_eq s, ?_, fun a => ?_⟩⟩
  · simp only [State.clearFramebuffer, State.advance]
  · rw [State.byte_advance, State.byte_clearFramebuffer]

end Sys2Proof.Machine

namespace Sys2Proof.Machine

/-! ## The timers and `Tick` (spec/45_timers.md) -/

/-! ### Access by instructions (R160 to R162) -/

/-- Settles O59: the words are the encoder's, each of the three writes one element and `PC`, and `tone` reads `ST`. -/
theorem timerAccess : Obligations.TimerAccess := fun s x =>
  ⟨decode_opXS rfl (by decide) rfl, decode_opXS rfl (by decide) rfl, decode_opXS rfl (by decide) rfl,
    ⟨_, rfl, rfl, fun k => State.reg_setReg s x k s.dt⟩, rfl, ⟨_, rfl, rfl, bne_iff_ne⟩⟩

/-! ### One tick and a run of ticks (R163) -/

theorem toNat_countDown (b : Byte) : (countDown b).toNat = b.toNat - 1 := by
  unfold countDown
  split <;> bv_omega

/-- The state with other values in the two timers. -/
def State.withTimers (s : State) (d b : Byte) : State := { s with dt := d, st := b }

theorem State.tick_of_not_faulted {s : State} (h : s.isFaulted = false) :
    s.tick = s.withTimers (countDown s.dt) (countDown s.st) := by
  simp only [State.tick, h, Bool.false_eq_true, if_false, State.withTimers]

theorem State.tick_of_faulted {s : State} (h : s.isFaulted = true) : s.tick = s := by
  simp only [State.tick, h, if_true]

theorem event_tick_of_not_faulted {s : State} (h : s.isFaulted = false) :
    event .tick s = .next (s.withTimers (countDown s.dt) (countDown s.st)) :=
  congrArg Host.Outcome.next (State.tick_of_not_faulted h)

/-- Settles O12: `Tick` is `countDown` on each timer, or nothing after a fault. -/
theorem tickCountsBothTimersDown : Obligations.TickCountsBothTimersDown := fun s =>
  ⟨fun h => ⟨_, event_tick_of_not_faulted h, rfl, toNat_countDown s.dt, toNat_countDown s.st⟩,
    fun h => congrArg Host.Outcome.next (State.tick_of_faulted h)⟩

/-- The head of the schedule acts first, and the rest of the run goes on from where it leads (log 1). -/
theorem run_of_cons {s t : State} {e : Event} {rest : List Event} (hs : s.schedule = e :: rest)
    (he : event e { s with schedule := rest } = .next t) (n : Nat) :
    Host.Core.run Sys2Proof.core (n + 1) s = Host.Core.run Sys2Proof.core n t := by
  have hstep : Sys2Proof.core.step s = .next t := (step_of_cons hs).trans he
  simp only [Host.Core.run, hstep]

/-- Settles O13, by induction on the number of ticks: the first leaves a state that is not faulted and the others in
the schedule. -/
theorem repeatedTicksStopAtZero : Obligations.RepeatedTicksStopAtZero := by
  intro n
  induction n with
  | zero =>
    intro s _ hs
    refine ⟨s, rfl, ?_, rfl, rfl⟩
    rw [show [] = s.schedule from hs.symm]
  | succ n ih =>
    intro s hf hs
    obtain ⟨t, hrun, ht, hdt, hst⟩ :=
      ih (State.withTimers { s with schedule := List.replicate n .tick } (countDown s.dt) (countDown s.st)) hf rfl
    refine ⟨t, (run_of_cons hs (event_tick_of_not_faulted hf) n).trans hrun, ht, ?_, ?_⟩
    · rw [hdt, State.withTimers, toNat_countDown, Nat.sub_sub, Nat.add_comm]
    · rw [hst, State.withTimers, toNat_countDown, Nat.sub_sub, Nat.add_comm]

/-! ### Drawing under a change of the state beside memory (R154) -/

section
variable {f : State → State} (hbyte : ∀ s a, (f s).byte a = s.byte a)
  (hset : ∀ s a b, (f s).setByte a b = f (s.setByte a b))
include hbyte hset

/-- A change of the state that keeps the bytes and commutes with their writing commutes with drawing. -/
theorem xorByte_map (s : State) (a : Nat) (mask : Byte) :
    xorByte (f s) a mask = (xorByte s a mask).map (Prod.map f id) := by
  rw [xorByte_eq, xorByte_eq, hbyte, hset]
  split <;> rfl

theorem drawRow_map (s : State) (o : Nat) (row : Byte) :
    drawRow (f s) o row = (drawRow s o row).map (Prod.map f id) := by
  unfold drawRow
  rw [xorByte_map hbyte hset]
  cases xorByte s (Config.fbBase + o / 8) (row >>> (o % 8)) with
  | error c => rfl
  | ok r =>
    simp only [Except.map, Prod.map, id, xorByte_map hbyte hset]
    split
    · rfl
    · cases xorByte r.1 (Config.fbBase + o / 8 + 1) (row <<< (8 - o % 8)) <;> rfl

theorem drawRows_map (rows : List Byte) : ∀ (s : State) (o : Nat),
    drawRows (f s) o rows = (drawRows s o rows).map (Prod.map f id) := by
  induction rows with
  | nil => intro s o; rfl
  | cons row rows ih =>
    intro s o
    rw [drawRows, drawRows, drawRow_map hbyte hset]
    cases drawRow s o row with
    | error c => rfl
    | ok r =>
      simp only [Except.map, Prod.map, id, ih]
      cases drawRows r.1 (o + Config.fbWidth) rows <;> rfl

end

/-! ### The timers influence no instruction that does not access them (R163, R190) -/

/-- An outcome with its next state, if it has one, changed by `f`. -/
def mapNext (f : State → State) : Host.Outcome State Fault Refusal → Host.Outcome State Fault Refusal
  | .next t => .next (f t)
  | .fault r => .fault r
  | .refused r => .refused r

theorem skipIf_withTimers (s : State) (cond : Bool) (d b : Byte) :
    skipIf (s.withTimers d b) cond = mapNext (·.withTimers d b) (skipIf s cond) := by
  cases cond <;> rfl

theorem finish_endDraw_withTimers (s : State) (r : Except Cause (State × Bool)) (d b : Byte) :
    finish (s.withTimers d b) ((r.map (Prod.map (·.withTimers d b) id)).map endDraw) =
      mapNext (·.withTimers d b) (finish s (r.map endDraw)) := by
  cases r <;> rfl

theorem exec_drw_withTimers (s : State) (x y : RegNum) (n : Fin 16) (d b : Byte) :
    exec (.drw x y n) (s.withTimers d b) = mapNext (·.withTimers d b) (exec (.drw x y n) s) := by
  rw [exec_drw_eq s, apply_ite (mapNext _), ← finish_endDraw_withTimers,
    ← drawRows_map (f := (·.withTimers d b)) (fun _ _ => rfl) (fun _ _ _ => rfl)]
  exact exec_drw_eq (s.withTimers d b) x y n

/-- What an instruction that accesses no timer does, it does with any values in the timers, and leaves them there. -/
theorem exec_withTimers {i : Instr} (hi : ∀ x, i ≠ .ldVxDt x ∧ i ≠ .ldDtVx x ∧ i ≠ .ldStVx x) (s : State)
    (d b : Byte) : exec i (s.withTimers d b) = mapNext (·.withTimers d b) (exec i s) := by
  cases i with
  | ldVxDt x => exact absurd rfl (hi x).1
  | ldDtVx x => exact absurd rfl (hi x).2.1
  | ldStVx x => exact absurd rfl (hi x).2.2
  | drw x y n => exact exec_drw_withTimers s x y n d b
  | cls => simp only [exec_cls_eq, mapNext, State.clearFramebuffer, State.advance, State.withTimers]
  | call nnn =>
    rw [exec_call_eq s, apply_ite (mapNext _), apply_ite (mapNext _)]
    exact exec_call_eq (s.withTimers d b) nnn
  | ret =>
    rw [exec_ret_eq s, apply_ite (mapNext _), apply_ite (mapNext _)]
    exact exec_ret_eq (s.withTimers d b)
  | ldB x =>
    rw [exec_ldB_eq s, apply_ite (mapNext _)]
    exact exec_ldB_eq (s.withTimers d b) x
  | storeRegs x =>
    rw [exec_storeRegs_eq s, apply_ite (mapNext _)]
    exact exec_storeRegs_eq (s.withTimers d b) x
  | loadRegs x =>
    rw [exec_loadRegs_eq s, apply_ite (mapNext _)]
    exact exec_loadRegs_eq (s.withTimers d b) x
  | seImm | sneImm | seReg | sneReg | skp | sknp => exact skipIf_withTimers s _ d b
  | _ => rfl

/-- Settles O14: the instruction leaves both timers as they are, so that both orders count the same values down. -/
theorem tickCommutesWithInstructions : Obligations.TickCommutesWithInstructions := by
  intro i s t hs ht hi h
  have hdt : t.dt = s.dt := by
    by_contra hne
    obtain ⟨x, hx⟩ := (exec_effect h).writes_dt hne
    exact (hi x).2.1 hx
  have hst : t.st = s.st := by
    by_contra hne
    obtain ⟨x, hx⟩ := (exec_effect h).writes_st hne
    exact (hi x).2.2 hx
  rw [State.tick_of_not_faulted hs, State.tick_of_not_faulted ht, hdt, hst, exec_withTimers hi, h, mapNext]

end Sys2Proof.Machine

namespace Sys2Proof.Machine

/-! ## Keypad input and the key wait (spec/46_input.md) -/

/-! ### The instructions (R170 to R172) -/

/-- A key code of 16 or more is no member of `KEYS` (D18). -/
theorem keyHeld_iff (s : State) (b : Byte) : s.keyHeld b = true ↔ b.toNat ≤ 15 ∧ s.keys.getLsbD b.toNat = true := by
  rw [State.keyHeld, Bool.and_eq_true, decide_eq_true_eq]

theorem not_keyHeld_iff (s : State) (b : Byte) :
    (!s.keyHeld b) = true ↔ ¬(b.toNat ≤ 15 ∧ s.keys.getLsbD b.toNat = true) := by
  rw [Bool.not_eq_true', ← Bool.not_eq_true, keyHeld_iff]

/-- Settles O39: each of the two is `skipIf` on whether the key is held. -/
theorem keySkips : Obligations.KeySkips := fun s x =>
  ⟨skipIf_of_iff (keyHeld_iff s (s.reg x)),
    (skipIf_of_iff (not_keyHeld_iff s (s.reg x))).trans (by rw [ite_not])⟩

/-- Settles O60: the equation is the meaning of FX0A. -/
theorem keyWaitSuspendsTheEngine : Obligations.KeyWaitSuspendsTheEngine := fun _ _ => rfl

/-! ### The events of the keys (R173, R174) -/

theorem State.keyDown_of_not_faulted {s : State} (h : s.isFaulted = false) (c : KeyCode) :
    s.keyDown c = { s with keys := s.keys ||| BitVec.twoPow 16 c.val } := by
  simp only [State.keyDown, h, Bool.false_eq_true, if_false]

theorem State.keyUp_of_not_faulted {s : State} (h : s.isFaulted = false) (c : KeyCode) :
    s.keyUp c = { s with keys := s.keys &&& ~~~(BitVec.twoPow 16 c.val) } := by
  simp only [State.keyUp, h, Bool.false_eq_true, if_false]

theorem State.keyDown_of_faulted {s : State} (h : s.isFaulted = true) (c : KeyCode) : s.keyDown c = s := by
  simp only [State.keyDown, h, if_true]

theorem State.keyUp_of_faulted {s : State} (h : s.isFaulted = true) (c : KeyCode) : s.keyUp c = s := by
  simp only [State.keyUp, h, if_true]

/-- The mask of a key code has the bit of that key and no other. -/
theorem getLsbD_keyMask (c k : KeyCode) : (BitVec.twoPow 16 c.val).getLsbD k.val = (k == c) := by
  rw [BitVec.getLsbD_twoPow, decide_eq_true c.isLt, Bool.true_and, Bool.beq_eq_decide_eq, decide_eq_decide,
    Fin.ext_iff, eq_comm]

theorem getLsbD_keys_or_keyMask (keys : BitVec 16) (c k : KeyCode) :
    (keys ||| BitVec.twoPow 16 c.val).getLsbD k.val = (k == c || keys.getLsbD k.val) := by
  rw [BitVec.getLsbD_or, getLsbD_keyMask, Bool.or_comm]

theorem getLsbD_keys_and_not_keyMask (keys : BitVec 16) (c k : KeyCode) :
    (keys &&& ~~~(BitVec.twoPow 16 c.val)).getLsbD k.val = (k != c && keys.getLsbD k.val) := by
  rw [BitVec.getLsbD_and, BitVec.getLsbD_not, decide_eq_true k.isLt, Bool.true_and, getLsbD_keyMask, Bool.and_comm,
    bne]

/-- Settles O15: each event puts the mask of its key over `KEYS`, or does nothing after a fault. -/
theorem keyEventsSetAndClearOneKey : Obligations.KeyEventsSetAndClearOneKey := fun s c =>
  ⟨fun h =>
    ⟨⟨_, congrArg Host.Outcome.next (State.keyDown_of_not_faulted h c), rfl, getLsbD_keys_or_keyMask s.keys c⟩,
      ⟨_, congrArg Host.Outcome.next (State.keyUp_of_not_faulted h c), rfl, getLsbD_keys_and_not_keyMask s.keys c⟩⟩,
    fun h => ⟨congrArg Host.Outcome.next (State.keyDown_of_faulted h c),
      congrArg Host.Outcome.next (State.keyUp_of_faulted h c)⟩⟩

/-! ### The resolution of a key wait (R175) -/

theorem State.resolveKeyWait_of_waiting {s : State} {x : RegNum} (h : s.run = .waitingForKey x) (c : KeyCode) :
    s.resolveKeyWait c = { s.setReg x (BitVec.ofNat 8 c.val) with run := .running } := by
  simp only [State.resolveKeyWait, h]

theorem State.resolveKeyWait_of_not_waiting {s : State} (h : ∀ x, s.run ≠ .waitingForKey x) (c : KeyCode) :
    s.resolveKeyWait c = s := by
  unfold State.resolveKeyWait
  split
  next => rfl
  next x hx => exact absurd hx (h x)
  next => rfl

/-- Settles O16: the resolution is a write of `V[X]` and the return to `Running`. -/
theorem resolveDeliversKeyAndResumes : Obligations.ResolveDeliversKeyAndResumes := fun s c =>
  ⟨fun x h => ⟨_, congrArg Host.Outcome.next (State.resolveKeyWait_of_waiting h c), rfl,
      fun k => State.reg_setReg s x k _⟩,
    fun h => congrArg Host.Outcome.next (State.resolveKeyWait_of_not_waiting h c)⟩

/-! ### The suspension protocol (R177) -/

@[simp] theorem State.run_tick (s : State) : s.tick.run = s.run := by
  unfold State.tick; split <;> rfl

@[simp] theorem State.run_keyDown (s : State) (c : KeyCode) : (s.keyDown c).run = s.run := by
  unfold State.keyDown; split <;> rfl

@[simp] theorem State.run_keyUp (s : State) (c : KeyCode) : (s.keyUp c).run = s.run := by
  unfold State.keyUp; split <;> rfl

theorem run_of_reset {s t : State} {image : List Byte} (h : event (.reset image) s = .next t) : t.run = .running := by
  simp only [event, resetEvent] at h
  split at h
  · cases h; rfl
  · cases h

theorem stepEvent_of_waiting {s : State} {x : RegNum} (h : s.run = .waitingForKey x) : stepEvent s = .next s :=
  stepEvent_of_not_running (by rw [h]; exact Run.noConfusion)

/-- An event keeps a key wait, or ends it in `Running`; the second is done by `ResolveKeyWait` and `Reset` alone. -/
theorem run_after_event_of_waiting {s t : State} {x : RegNum} {e : Event} (hs : s.run = .waitingForKey x)
    (h : event e s = .next t) :
    t.run = .waitingForKey x ∨ t.run = .running ∧ ((∃ c, e = .resolveKeyWait c) ∨ ∃ image, e = .reset image) := by
  cases e with
  | step => cases (stepEvent_of_waiting hs).symm.trans h; exact .inl hs
  | tick => cases h; exact .inl ((State.run_tick s).trans hs)
  | keyDown c => cases h; exact .inl ((State.run_keyDown s c).trans hs)
  | keyUp c => cases h; exact .inl ((State.run_keyUp s c).trans hs)
  | resolveKeyWait c =>
    cases h
    exact .inr ⟨congrArg State.run (State.resolveKeyWait_of_waiting hs c), .inl ⟨c, rfl⟩⟩
  | reset image => exact .inr ⟨run_of_reset h, .inr ⟨image, rfl⟩⟩

/-- A `Step` that enters a key wait executed FX0A: a fault, a word that is no instruction and every other
instruction leave another `RUN`. -/
theorem decode_of_stepEvent_enters_keyWait {s t : State} {x : RegNum} (hs : s.run = .running)
    (h : stepEvent s = .next t) (ht : t.run = .waitingForKey x) :
    decode (wordOf (s.byte s.pc.toNat) (s.byte (s.pc.toNat + 1))) = .ok (.ldVxK x) := by
  obtain ⟨hr, -⟩ | ⟨-, -, rfl⟩ | ⟨-, -, ⟨_, -, hu⟩ | ⟨i, hd, hx⟩⟩ := stepEvent_cases h
  · exact absurd hs hr
  · cases ht
  · obtain rfl | rfl := execUnmapped_cases hu
    · cases hs.symm.trans ht
    · cases ht
  · rw [hd, (exec_effect hx).enters_keyWait hs ht]

/-- No event but `Step` leads from `Running` into a key wait. -/
theorem event_enters_keyWait {s t : State} {x : RegNum} {e : Event} (hs : s.run = .running)
    (h : event e s = .next t) (ht : t.run = .waitingForKey x) :
    e = .step ∧ decode (wordOf (s.byte s.pc.toNat) (s.byte (s.pc.toNat + 1))) = .ok (.ldVxK x) := by
  cases e with
  | step => exact ⟨rfl, decode_of_stepEvent_enters_keyWait hs h ht⟩
  | tick => cases h; rw [State.run_tick, hs] at ht; cases ht
  | keyDown c => cases h; rw [State.run_keyDown, hs] at ht; cases ht
  | keyUp c => cases h; rw [State.run_keyUp, hs] at ht; cases ht
  | resolveKeyWait c =>
    cases h
    rw [State.resolveKeyWait_of_not_waiting (by rw [hs]; exact fun _ => Run.noConfusion), hs] at ht
    cases ht
  | reset image => cases (run_of_reset h).symm.trans ht

/-- Settles O17: the three edges are the equations of FX0A, `ResolveKeyWait` and `Step`, and the last two clauses go
through the six events. -/
theorem suspensionProtocol : Obligations.SuspensionProtocol := by
  refine ⟨?_, ?_, fun s x => stepEvent_of_waiting, fun s t x e => run_after_event_of_waiting,
    fun s t x e => event_enters_keyWait⟩
  · intro s x hr hp hd
    exact ⟨_, (stepEvent_of_decode hr hp hd).trans (keyWaitSuspendsTheEngine s x), rfl⟩
  · intro s x c hs
    exact ⟨_, congrArg Host.Outcome.next (State.resolveKeyWait_of_waiting hs c), rfl, reg_setReg_self s x _⟩

end Sys2Proof.Machine

namespace Sys2Proof.Machine

/-! ## Faults (spec/60_exceptions.md) -/

/-! ### A fault changes `RUN` alone, and stays (R186, R189) -/

theorem Effect.eq_raise_of_faulted {i : Instr} {s t : State} {c : Cause} (he : Effect s i t) (hs : s.run = .running)
    (ht : t.run = .faulted c) : t = s.raise c := by
  cases he with
  | fault => cases ht; rfl
  | keyWait => cases ht
  | _ => cases hs.symm.trans ht

/-- A `Step` of a running engine that ends in a fault is fault entry, whether the fetch, the word or its instruction
raised it. -/
theorem stepEvent_eq_raise_of_faulted {s t : State} {c : Cause} (hs : s.run = .running) (h : stepEvent s = .next t)
    (ht : t.run = .faulted c) : t = s.raise c := by
  obtain ⟨hr, -⟩ | ⟨-, -, rfl⟩ | ⟨-, -, ⟨_, -, hu⟩ | ⟨_, -, hx⟩⟩ := stepEvent_cases h
  · exact absurd hs hr
  · cases ht; rfl
  · obtain rfl | rfl := execUnmapped_cases hu
    · cases hs.symm.trans ht
    · cases ht; rfl
  · exact (exec_effect hx).eq_raise_of_faulted hs ht

/-- Settles O18: a running engine entered the fault, and any other was left as it was. -/
theorem faultingStepHasNoOtherEffect : Obligations.FaultingStepHasNoOtherEffect := by
  intro s t h hf
  by_cases hs : s.run = .running
  · obtain ⟨c, ht⟩ := isFaulted_iff.1 hf
    rw [stepEvent_eq_raise_of_faulted hs h ht]; rfl
  · cases (stepEvent_of_not_running hs).symm.trans h; rfl

theorem event_reset_of_fits {image : List Byte} (h : image.length ≤ 3328) (s : State) :
    event (.reset image) s = .next (s.restart image) := if_pos h

theorem event_reset_of_too_long {image : List Byte} (h : 3328 < image.length) (s : State) :
    event (.reset image) s = .fault (.imageRejected image.length) := if_neg (Nat.not_le.2 h)

/-- Settles O19: five of the events do nothing after a fault, and `Reset` does not look at `RUN`. -/
theorem faultedBlockIsAbsorbing : Obligations.FaultedBlockIsAbsorbing := by
  intro s e hf
  obtain ⟨c, hc⟩ := isFaulted_iff.1 hf
  cases e with
  | step => exact .inl ⟨stepEvent_of_not_running (by rw [hc]; exact Run.noConfusion), fun _ => Event.noConfusion⟩
  | tick => exact .inl ⟨congrArg _ (State.tick_of_faulted hf), fun _ => Event.noConfusion⟩
  | keyDown k => exact .inl ⟨congrArg _ (State.keyDown_of_faulted hf k), fun _ => Event.noConfusion⟩
  | keyUp k => exact .inl ⟨congrArg _ (State.keyUp_of_faulted hf k), fun _ => Event.noConfusion⟩
  | resolveKeyWait k =>
    have hwait : ∀ x, s.run ≠ .waitingForKey x := fun x => by rw [hc]; exact Run.noConfusion
    exact .inl ⟨congrArg _ (State.resolveKeyWait_of_not_waiting hwait k), fun _ => Event.noConfusion⟩
  | reset image =>
    refine .inr ⟨image, rfl, ?_⟩
    by_cases himage : image.length ≤ 3328
    · exact .inl ⟨_, event_reset_of_fits himage s, rfl⟩
    · exact .inr (event_reset_of_too_long (Nat.lt_of_not_le himage) s)

/-! ### Who raises what (R180 to R184, R188, R196) -/

theorem stepEvent_of_pc_overrun {s : State} (hs : s.run = .running) (hpc : 4095 ≤ s.pc.toNat) :
    stepEvent s = .next (s.raise (.addressOverrun (max s.pc.toNat 4096))) := by
  rw [stepEvent_of_running hs, if_neg (by omega)]

/-- Settles O9: the first address of the fetch that is not in memory is `PC` itself or, at 4095, the one after it. -/
theorem fetchPastMemoryFaults : Obligations.FetchPastMemoryFaults := by
  refine fun s hs => ⟨fun hpc => ?_, fun hpc => ?_⟩
  · rw [event, stepEvent_of_pc_overrun hs (by omega), Nat.max_eq_left hpc]; rfl
  · rw [event, stepEvent_of_pc_overrun hs (by omega), Nat.max_eq_right (by omega)]; rfl

/-- Settles O34: with `CAP` entries on the stack, `SP` has left the stack region at its low end. -/
theorem callWithFullStackOverflows : Obligations.CallWithFullStackOverflows := by
  refine ⟨rfl, fun s nnn hs hfull => ?_⟩
  obtain ⟨-, hlohi, -, hloEven, hhiEven⟩ := hs.config
  have hsp : s.sp.toNat < s.cfg.stackLo := by
    rw [Config.cap] at hfull; omega
  rw [exec_call_eq, if_pos hsp]; rfl

/-- Settles O36: the check of the pop is on exactly this `SP`. -/
theorem returnOnEmptyStackUnderflows : Obligations.ReturnOnEmptyStackUnderflows := by
  intro s hempty
  rw [exec_ret_eq, if_pos (by omega)]; rfl

/-- The stack region lies below the programs, so that no access to the stack leaves memory (R58). -/
theorem State.Inv.sp_le {s : State} (hs : s.Inv) : s.sp.toNat ≤ 510 := by
  obtain ⟨_, -, hsp⟩ := hs.stack
  obtain ⟨-, -, hprog, -, -⟩ := hs.config
  omega

section
variable {s t : State} {c : Cause} (hs : s.run = .running) (ht : t.run = .faulted c)
include hs ht

theorem cause_of_call {nnn : BitVec 12} (hinv : s.Inv) (h : exec (.call nnn) s = .next t) : c = .stackOverflow := by
  have hsp := hinv.sp_le
  rw [exec_call_eq, if_pos (show s.sp.toNat + 1 < 4096 by omega)] at h
  split_ifs at h <;> cases h
  · cases ht; rfl
  · cases hs.symm.trans ht

theorem cause_of_ret (hinv : s.Inv) (h : exec .ret s = .next t) : c = .stackUnderflow := by
  have hsp := hinv.sp_le
  rw [exec_ret_eq, if_pos (show (s.sp + 2).toNat + 1 < 4096 by bv_omega)] at h
  split_ifs at h <;> cases h
  · cases ht; rfl
  · cases hs.symm.trans ht

theorem cause_of_drw {x y : RegNum} {n : Fin 16} (h : exec (.drw x y n) s = .next t) :
    ∃ a, c = .addressOverrun a := by
  have hc := exec_drw_cases s x y n
  split at hc
  next a _ =>
    cases h.symm.trans hc
    cases ht
    exact ⟨a, rfl⟩
  next =>
    obtain ⟨u, hit, he, hu⟩ := hc
    have hrun : t.run = s.run := by
      rw [Host.Outcome.next.inj (h.symm.trans he), State.run_advance, State.run_setReg, hu.rest]
    cases hs.symm.trans (hrun.symm.trans ht)

/-- The form of FX33, FX55 and FX65: either the run of bytes fits and `RUN` stays, or an address runs out of memory. -/
theorem cause_of_run_of_bytes {fits : Prop} [Decidable fits] {u : State} {a : Nat}
    (h : (if fits then .next u else .next (s.raise (.addressOverrun a)) : Host.Outcome State Fault Refusal) = .next t)
    (hu : u.run = s.run) : c = .addressOverrun a := by
  split_ifs at h <;> cases h
  · cases hs.symm.trans (hu.symm.trans ht)
  · cases ht; rfl

end

/-- Settles O20: under the invariant the stack instructions fail at their checks alone, the four that access memory
at an address alone, and every other instruction leaves `RUN` without a fault. -/
theorem onlyListedInstructionsFault : Obligations.OnlyListedInstructionsFault := by
  intro i s t c hinv hs h ht
  cases i with
  | call nnn => exact .inl ⟨cause_of_call hs ht hinv h, nnn, rfl⟩
  | ret => exact .inr (.inl ⟨cause_of_ret hs ht hinv h, rfl⟩)
  | drw x y n =>
    obtain ⟨a, ha⟩ := cause_of_drw hs ht h
    exact .inr (.inr ⟨a, ha, .inl ⟨x, y, n, rfl⟩⟩)
  | ldB x =>
    have hc := cause_of_run_of_bytes hs ht ((exec_ldB_eq s x).symm.trans h) rfl
    exact .inr (.inr ⟨_, hc, .inr ⟨x, .inl rfl⟩⟩)
  | storeRegs x =>
    have hc := cause_of_run_of_bytes hs ht ((exec_storeRegs_eq s x).symm.trans h) rfl
    exact .inr (.inr ⟨_, hc, .inr ⟨x, .inr (.inl rfl)⟩⟩)
  | loadRegs x =>
    have hc := cause_of_run_of_bytes hs ht ((exec_loadRegs_eq s x).symm.trans h)
      (by rw [State.run_advance, State.run_setI, State.run_setRegs])
    exact .inr (.inr ⟨_, hc, .inr ⟨x, .inr (.inr rfl)⟩⟩)
  | cls =>
    rw [exec_cls_eq, Host.Outcome.next.injEq] at h
    rw [← h, State.run_advance, State.run_clearFramebuffer, hs] at ht
    cases ht
  | seImm | sneImm | seReg | sneReg | skp | sknp =>
    cases (skipIf_eq s _).symm.trans h
    cases hs.symm.trans ht
  | ldVxK => cases h; cases ht
  | _ => cases h; cases hs.symm.trans ht

end Sys2Proof.Machine

namespace Sys2Proof.Machine

/-! ## Reset (spec/70_reset_and_hazards.md) -/

/-- An unlisted cell reads as the font below 80 and as 0 above it. -/
theorem Memory.unlisted_eq (font : Font) (a : Nat) :
    Memory.unlisted font a = if h : a < 80 then font[a] else 0 := by
  rw [Memory.unlisted, List.getD_eq_getElem?_getD]
  split
  next h => simp [h]
  next h => rw [List.getElem?_eq_none (by simpa using h)]; rfl

/-- The contents of memory that `Reset` makes: the image lies above the font. -/
theorem byte_restart (s : State) (image : List Byte) (a : Nat) :
    (s.restart image).byte a = if h : a < 80 then s.cfg.font[a]
      else if 512 ≤ a ∧ a < 512 + image.length then image.getD (a - 512) 0 else 0 := by
  have hread : (s.restart image).byte a =
      if 512 ≤ a ∧ a < 512 + image.length then image.getD (a - 512) 0 else Memory.unlisted s.cfg.font a := by
    rw [← Memory.read_nil]; exact Memory.read_writeList _ _ _ _ _
  rw [hread, Memory.unlisted_eq]
  by_cases hfont : a < 80
  · rw [if_neg (by omega), dif_pos hfont, dif_pos hfont]
  · rw [dif_neg hfont, dif_neg hfont]

theorem reg_restart (s : State) (image : List Byte) (k : RegNum) : (s.restart image).reg k = 0 := by
  simp [State.reg, State.restart]

/-- The stack of a block after `Reset` is empty (R28). -/
theorem toNat_sp_restart {s : State} (hs : s.cfg.wf) (image : List Byte) :
    (s.restart image).sp.toNat + 2 = s.cfg.stackHi := by
  obtain ⟨hfont, hlohi, hprog, -, -⟩ := hs
  simp only [State.restart, BitVec.toNat_ofNat]
  omega

/-- Settles O21: the length of the image decides, and `restart` is the state of R200. -/
theorem resetBuildsAllState : Obligations.ResetBuildsAllState := fun s image hs =>
  ⟨fun himage => ⟨s.restart image, event_reset_of_fits himage s, fun a _ => byte_restart s image a,
      reg_restart s image, rfl, rfl, toNat_sp_restart hs image, rfl, rfl, rfl, rfl, rfl⟩,
    fun himage => event_reset_of_too_long himage s⟩

end Sys2Proof.Machine
